-- ==== Sys2Proof/Word.lean ====
section
/-! DEFINITION. The machine's values: 32-bit words, 8-bit instruction fields, and the mask of 00_scope.md R7. -/

namespace Sys2Proof

/-- A `u32` (R7): what a general register, the PC, the IR and a memory cell hold. -/
abbrev Word := BitVec 32

/-- A `u8` (R8): an opcode byte or one of the operand fields RA, RB, RC, d (R57, R58). -/
abbrev Byte := BitVec 8

/-- `mask32(v) = v mod 2^32`, for every integer `v`, negative ones included (R7). -/
def mask32 (v : Int) : Word := BitVec.ofInt 32 v

end Sys2Proof
end

