-- ==== Sys2Proof/Syntax.lean ====
section
/-! DEFINITION. The instructions: one constructor of `Instr` per row of spec/opcode_table.json, each holding the
operand fields of its layout (30_encoding.md R57 to R60) as the word has them. -/

namespace Sys2Proof

/-- The 30 mnemonics of the opcode map (30_encoding.md R64). -/
inductive Mnemonic where
  | add | sub | zeros | xor | or | not | and | asl | asr | lsl | lsr | passa
  | lclMsb | lclLsb | load | store | jal | jr | beq | bne | j
  | mul | div | mod | neg | inc | dec | bgt | blt | halt
  deriving DecidableEq, Repr

/-- Every mnemonic, in the order of R64's table. -/
def Mnemonic.all : List Mnemonic :=
  [.add, .sub, .zeros, .xor, .or, .not, .and, .asl, .asr, .lsl, .lsr, .passa] ++
  [.lclMsb, .lclLsb, .load, .store, .jal, .jr, .beq, .bne, .j] ++
  [.mul, .div, .mod, .neg, .inc, .dec, .bgt, .blt, .halt]

/-- The layouts of R57 to R59, and halt's (opcode only, R60). -/
inductive Shape where
  | r | i | j | none
  deriving DecidableEq, Repr

/-- The shape the mnemonic alone selects (R60). -/
def Mnemonic.shape : Mnemonic → Shape
  | .lclMsb | .lclLsb => .i
  | .j | .jal => .j
  | .halt => .none
  | .add | .sub | .zeros | .xor | .or | .not | .and | .asl | .asr | .lsl | .lsr | .passa
  | .mul | .div | .mod | .neg | .inc | .dec
  | .load | .store | .jr | .beq | .bne | .bgt | .blt => .r

/-- An instruction with its operand fields. An R-type instruction keeps all three 8-bit fields, the ones its
operation ignores too: DECODE checks RA and RB of every R-type word (40_execution_cycle.md R76, R77).
`target` is a conditional branch's RC field, an absolute address (R57). halt reads no field (R67). -/
inductive Instr where
  | add (ra rb rc : Byte)
  | sub (ra rb rc : Byte)
  | zeros (ra rb rc : Byte)
  | xor (ra rb rc : Byte)
  | or (ra rb rc : Byte)
  | not (ra rb rc : Byte)
  | and (ra rb rc : Byte)
  | asl (ra rb rc : Byte)
  | asr (ra rb rc : Byte)
  | lsl (ra rb rc : Byte)
  | lsr (ra rb rc : Byte)
  | passa (ra rb rc : Byte)
  | lclMsb (imm16 : BitVec 16) (d : Byte)
  | lclLsb (imm16 : BitVec 16) (d : Byte)
  | load (ra rb rc : Byte)
  | store (ra rb rc : Byte)
  | jal (addr24 : BitVec 24)
  | jr (ra rb rc : Byte)
  | beq (ra rb target : Byte)
  | bne (ra rb target : Byte)
  | j (addr24 : BitVec 24)
  | mul (ra rb rc : Byte)
  | div (ra rb rc : Byte)
  | mod (ra rb rc : Byte)
  | neg (ra rb rc : Byte)
  | inc (ra rb rc : Byte)
  | dec (ra rb rc : Byte)
  | bgt (ra rb target : Byte)
  | blt (ra rb target : Byte)
  | halt
  deriving DecidableEq, Repr

/-- The mnemonic of an instruction. -/
def Instr.mnemonic : Instr → Mnemonic
  | .add _ _ _ => .add
  | .sub _ _ _ => .sub
  | .zeros _ _ _ => .zeros
  | .xor _ _ _ => .xor
  | .or _ _ _ => .or
  | .not _ _ _ => .not
  | .and _ _ _ => .and
  | .asl _ _ _ => .asl
  | .asr _ _ _ => .asr
  | .lsl _ _ _ => .lsl
  | .lsr _ _ _ => .lsr
  | .passa _ _ _ => .passa
  | .lclMsb _ _ => .lclMsb
  | .lclLsb _ _ => .lclLsb
  | .load _ _ _ => .load
  | .store _ _ _ => .store
  | .jal _ => .jal
  | .jr _ _ _ => .jr
  | .beq _ _ _ => .beq
  | .bne _ _ _ => .bne
  | .j _ => .j
  | .mul _ _ _ => .mul
  | .div _ _ _ => .div
  | .mod _ _ _ => .mod
  | .neg _ _ _ => .neg
  | .inc _ _ _ => .inc
  | .dec _ _ _ => .dec
  | .bgt _ _ _ => .bgt
  | .blt _ _ _ => .blt
  | .halt => .halt

/-- The name of a field that an instruction uses as a register index (60_exceptions.md R135). -/
inductive RegField where
  | ra | rb | rc | d
  deriving DecidableEq, Repr

end Sys2Proof
end

