-- ==== Sys2Proof/Config.lean ====
section
/-! DEFINITION. The implementation parameters of 00_scope.md R5: the fixed ones as values, the OPEN ones as an
argument of the decoder (`OpcodeMap`) and as a constant with no body (`Config.branchSigned`). -/

namespace Sys2Proof

/-- `OPC : Mnemonic -> u8`, OPEN except for halt (R5). What 30_encoding.md R63 asks of it comes with it: it is
injective and gives halt the byte 0xFF, so no other mnemonic has that byte. -/
structure OpcodeMap where
  value : Mnemonic → Byte
  injective : ∀ m n : Mnemonic, value m = value n → m = n
  halt_value : value .halt = 0xFF#8

/-- `MEM_WORDS`: word addresses are 0 to 65535 (R5, R34). -/
def Config.memWords : Nat := 65536

/-- `LINK_REG`: register 31 (R5, R17). -/
def Config.linkReg : Fin 32 := 31

/-- `MAX_CYCLES`: the default bound of `run`, a host parameter (R5, R157). -/
def Config.maxCycles : Nat := 1000

/-- `BRANCH_SIGNED`: whether bgt and blt compare signed values. OPEN (R5, 92_eei_decisions.md D4): no body, so no
proof can see which it is (log entry 2). -/
opaque Config.branchSigned : Bool

end Sys2Proof
end

