-- ==== Sys2Proof/WellFormed.lean ====
section
/-! DEFINITION. Which instructions pass DECODE's register-index check (40_execution_cycle.md R77). The fields are 8 bits
wide, the register file has 32 entries; every other field is legal at every value. -/

namespace Sys2Proof

/-- The fields an instruction uses as register indices, in the order DECODE checks them: R77's table. The jumps,
halt and bits 23 to 8 of a load constant name none (R78, R67; log entry 6). -/
def Instr.registerFields : Instr → List (RegField × Byte)
  | .add ra rb rc | .sub ra rb rc | .zeros ra rb rc | .xor ra rb rc | .or ra rb rc | .not ra rb rc
  | .and ra rb rc | .asl ra rb rc | .asr ra rb rc | .lsl ra rb rc | .lsr ra rb rc | .passa ra rb rc
  | .mul ra rb rc | .div ra rb rc | .mod ra rb rc | .neg ra rb rc | .inc ra rb rc | .dec ra rb rc
  | .load ra rb rc | .store ra rb rc | .jr ra rb rc => [(.ra, ra), (.rb, rb), (.rc, rc)]
  | .beq ra rb _ | .bne ra rb _ | .bgt ra rb _ | .blt ra rb _ => [(.ra, ra), (.rb, rb)]
  | .lclMsb _ d | .lclLsb _ d => [(.d, d)]
  | .j _ | .jal _ | .halt => []

/-- A field value that names one of the 32 registers. -/
def validIndex (v : Byte) : Bool := decide (v.toNat < 32)

/-- The first field, in R77's order, whose value names no register. -/
def Instr.firstBadField (i : Instr) : Option (RegField × Byte) :=
  i.registerFields.find? fun f => !validIndex f.2

/-- Every field used as a register index is 0 to 31. -/
def Instr.wf (i : Instr) : Bool := i.registerFields.all fun f => validIndex f.2

end Sys2Proof
end

