-- ==== Sys2Proof/Decode.lean ====
section
/-! DEFINITION. The decoder and the encoder of 30_encoding.md, for every opcode map OPC, from an instruction and from a
mnemonic's operand list; then the reference map REF_OPC
(R64) the machine's own `step` decodes with, and the host's table words. -/

namespace Sys2Proof

/-- `w[31:24]` (R56, R61). -/
def opcodeOf (w : Word) : Byte := w.extractLsb' 24 8
/-- `w[23:16]` (R61). -/
def raOf (w : Word) : Byte := w.extractLsb' 16 8
/-- `w[15:8]` (R61). -/
def rbOf (w : Word) : Byte := w.extractLsb' 8 8
/-- `w[7:0]`, also the I-type d (R61). -/
def rcOf (w : Word) : Byte := w.extractLsb' 0 8
/-- `w[23:8]` (R61). -/
def immediate16Of (w : Word) : BitVec 16 := w.extractLsb' 8 16
/-- `w[23:0]` (R61). -/
def address24Of (w : Word) : BitVec 24 := w.extractLsb' 0 24

/-- What decoding a word gives. It never fails: an opcode byte of no mnemonic gives the marker `unknown` (R65),
which is no instruction of `Instr` (log entry 5). -/
inductive Decoded where
  | known (i : Instr)
  | unknown
  deriving DecidableEq, Repr

/-- The mnemonic whose opcode the byte is, if there is one (R63). -/
def OpcodeMap.mnemonicOf (opc : OpcodeMap) (b : Byte) : Option Mnemonic :=
  Mnemonic.all.find? fun m => opc.value m == b

/-- The instruction a known mnemonic and the word's fields give: the mnemonic selects the views (R60 to R62). -/
def instrOf (m : Mnemonic) (w : Word) : Instr :=
  match m with
  | .add => .add (raOf w) (rbOf w) (rcOf w)
  | .sub => .sub (raOf w) (rbOf w) (rcOf w)
  | .zeros => .zeros (raOf w) (rbOf w) (rcOf w)
  | .xor => .xor (raOf w) (rbOf w) (rcOf w)
  | .or => .or (raOf w) (rbOf w) (rcOf w)
  | .not => .not (raOf w) (rbOf w) (rcOf w)
  | .and => .and (raOf w) (rbOf w) (rcOf w)
  | .asl => .asl (raOf w) (rbOf w) (rcOf w)
  | .asr => .asr (raOf w) (rbOf w) (rcOf w)
  | .lsl => .lsl (raOf w) (rbOf w) (rcOf w)
  | .lsr => .lsr (raOf w) (rbOf w) (rcOf w)
  | .passa => .passa (raOf w) (rbOf w) (rcOf w)
  | .lclMsb => .lclMsb (immediate16Of w) (rcOf w)
  | .lclLsb => .lclLsb (immediate16Of w) (rcOf w)
  | .load => .load (raOf w) (rbOf w) (rcOf w)
  | .store => .store (raOf w) (rbOf w) (rcOf w)
  | .jal => .jal (address24Of w)
  | .jr => .jr (raOf w) (rbOf w) (rcOf w)
  | .beq => .beq (raOf w) (rbOf w) (rcOf w)
  | .bne => .bne (raOf w) (rbOf w) (rcOf w)
  | .j => .j (address24Of w)
  | .mul => .mul (raOf w) (rbOf w) (rcOf w)
  | .div => .div (raOf w) (rbOf w) (rcOf w)
  | .mod => .mod (raOf w) (rbOf w) (rcOf w)
  | .neg => .neg (raOf w) (rbOf w) (rcOf w)
  | .inc => .inc (raOf w) (rbOf w) (rcOf w)
  | .dec => .dec (raOf w) (rbOf w) (rcOf w)
  | .bgt => .bgt (raOf w) (rbOf w) (rcOf w)
  | .blt => .blt (raOf w) (rbOf w) (rcOf w)
  | .halt => .halt

/-- The decoder, with OPC as an argument (R63, R75). -/
def decode (opc : OpcodeMap) (w : Word) : Decoded :=
  match opc.mnemonicOf (opcodeOf w) with
  | some m => .known (instrOf m w)
  | none => .unknown

/-- The R-type word: opcode, RA, RB, RC from bit 31 down (R57, R68). -/
def encodeR (op ra rb rc : Byte) : Word := op ++ ra ++ rb ++ rc
/-- The I-type word: opcode, imm16, d (R58, R68). -/
def encodeI (op : Byte) (imm16 : BitVec 16) (d : Byte) : Word := op ++ imm16 ++ d
/-- The J-type word: opcode, addr24 (R59, R68). -/
def encodeJ (op : Byte) (addr24 : BitVec 24) : Word := op ++ addr24

/-- The encoder of an instruction with all its fields, the ignored ones too (R68); halt's bits 23 to 0 are zero-filled.
`encodeOperands` is the encoder from an operand list. -/
def encode (opc : OpcodeMap) (i : Instr) : Word :=
  match i with
  | .add ra rb rc => encodeR (opc.value .add) ra rb rc
  | .sub ra rb rc => encodeR (opc.value .sub) ra rb rc
  | .zeros ra rb rc => encodeR (opc.value .zeros) ra rb rc
  | .xor ra rb rc => encodeR (opc.value .xor) ra rb rc
  | .or ra rb rc => encodeR (opc.value .or) ra rb rc
  | .not ra rb rc => encodeR (opc.value .not) ra rb rc
  | .and ra rb rc => encodeR (opc.value .and) ra rb rc
  | .asl ra rb rc => encodeR (opc.value .asl) ra rb rc
  | .asr ra rb rc => encodeR (opc.value .asr) ra rb rc
  | .lsl ra rb rc => encodeR (opc.value .lsl) ra rb rc
  | .lsr ra rb rc => encodeR (opc.value .lsr) ra rb rc
  | .passa ra rb rc => encodeR (opc.value .passa) ra rb rc
  | .lclMsb imm16 d => encodeI (opc.value .lclMsb) imm16 d
  | .lclLsb imm16 d => encodeI (opc.value .lclLsb) imm16 d
  | .load ra rb rc => encodeR (opc.value .load) ra rb rc
  | .store ra rb rc => encodeR (opc.value .store) ra rb rc
  | .jal addr24 => encodeJ (opc.value .jal) addr24
  | .jr ra rb rc => encodeR (opc.value .jr) ra rb rc
  | .beq ra rb target => encodeR (opc.value .beq) ra rb target
  | .bne ra rb target => encodeR (opc.value .bne) ra rb target
  | .j addr24 => encodeJ (opc.value .j) addr24
  | .mul ra rb rc => encodeR (opc.value .mul) ra rb rc
  | .div ra rb rc => encodeR (opc.value .div) ra rb rc
  | .mod ra rb rc => encodeR (opc.value .mod) ra rb rc
  | .neg ra rb rc => encodeR (opc.value .neg) ra rb rc
  | .inc ra rb rc => encodeR (opc.value .inc) ra rb rc
  | .dec ra rb rc => encodeR (opc.value .dec) ra rb rc
  | .bgt ra rb target => encodeR (opc.value .bgt) ra rb target
  | .blt ra rb target => encodeR (opc.value .blt) ra rb target
  | .halt => encodeJ (opc.value .halt) 0#24

/-- A field that an operand is written into (R57 to R59); d is the I-type name of bits 7 to 0. -/
inductive OperandField where
  | ra | rb | rc | imm16 | d | addr24
  deriving DecidableEq, Repr

/-- The field's width in bits (R57 to R59). -/
def OperandField.width : OperandField → Nat
  | .ra | .rb | .rc | .d => 8
  | .imm16 => 16
  | .addr24 => 24

/-- The field's lowest bit in the word: R68's shifts. -/
def OperandField.position : OperandField → Nat
  | .ra => 16
  | .rb | .imm16 => 8
  | .rc | .d | .addr24 => 0

/-- The field's view of a word (R61). -/
def OperandField.read (f : OperandField) (w : Word) : Nat :=
  match f with
  | .ra => (raOf w).toNat
  | .rb => (rbOf w).toNat
  | .rc | .d => (rcOf w).toNat
  | .imm16 => (immediate16Of w).toNat
  | .addr24 => (address24Of w).toNat

/-- The fields of a shape, which fill bits 23 to 0 (R57 to R60). -/
def Shape.fields : Shape → List OperandField
  | .r => [.ra, .rb, .rc]
  | .i => [.imm16, .d]
  | .j => [.addr24]
  | .none => []

/-- The fields a mnemonic's ordered operands go to: R69's table, the destination first. -/
def Mnemonic.operandFields : Mnemonic → List OperandField
  | .add | .sub | .xor | .or | .and | .asl | .asr | .lsl | .lsr | .mul | .div | .mod => [.rc, .ra, .rb]
  | .not | .passa | .neg | .inc | .dec => [.rc, .ra]
  | .zeros => [.rc]
  | .lclMsb | .lclLsb => [.d, .imm16]
  | .load | .store => [.rc, .ra]
  | .jr => [.rc]
  | .j | .jal => [.addr24]
  | .beq | .bne | .bgt | .blt => [.ra, .rb, .rc]
  | .halt => []

/-- Bits 23 to 0 with each operand in its field and zeros elsewhere (R68). None where the list has another length than
the fields, or an operand is wider than its field (log entry 19). -/
def placeOperands : List OperandField → List Nat → Option Nat
  | [], [] => some 0
  | f :: fields, v :: operands =>
    if v < 2 ^ f.width then (placeOperands fields operands).map (v * 2 ^ f.position + ·) else none
  | [], _ :: _ | _ :: _, [] => none

/-- The encoder from a mnemonic and its ordered operand list: the fields the mnemonic does not use are zero-filled
(R66, R68). -/
def encodeOperands (opc : OpcodeMap) (m : Mnemonic) (operands : List Nat) : Option Word :=
  (placeOperands m.operandFields operands).map fun bits => encodeJ (opc.value m) (BitVec.ofNat 24 bits)

/-- `REF_OPC` (R64). PRESUMED: 0x01 to 0x16 are the spec's general knowledge and 0x17 to 0x1E its own choice; only
halt's 0xFF comes from the source (log entry 1). -/
def refOpcode : Mnemonic → Byte
  | .add => 0x01#8
  | .sub => 0x02#8
  | .zeros => 0x03#8
  | .xor => 0x04#8
  | .or => 0x05#8
  | .not => 0x06#8
  | .and => 0x07#8
  | .asl => 0x08#8
  | .asr => 0x09#8
  | .lsl => 0x0A#8
  | .lsr => 0x0B#8
  | .passa => 0x0C#8
  | .lclMsb => 0x0E#8
  | .lclLsb => 0x0F#8
  | .load => 0x10#8
  | .store => 0x11#8
  | .jal => 0x12#8
  | .jr => 0x13#8
  | .beq => 0x14#8
  | .bne => 0x15#8
  | .j => 0x16#8
  | .mul => 0x17#8
  | .div => 0x18#8
  | .mod => 0x19#8
  | .neg => 0x1A#8
  | .inc => 0x1B#8
  | .dec => 0x1C#8
  | .bgt => 0x1D#8
  | .blt => 0x1E#8
  | .halt => 0xFF#8

/-- Reading `refOpcode` back: the first mnemonic with that byte. -/
theorem refOpcode_find (m : Mnemonic) :
    Mnemonic.all.find? (fun n => refOpcode n == refOpcode m) = some m := by
  cases m <;> rfl

/-- R63's condition on an opcode map holds of REF_OPC. -/
theorem refOpcode_injective (m n : Mnemonic) (h : refOpcode m = refOpcode n) : m = n := by
  have hm := refOpcode_find m
  rw [h, refOpcode_find n] at hm
  exact (Option.some.inj hm).symm

/-- `REF_OPC` as an opcode map: the instance the machine's own `step` decodes with. -/
def refOpc : OpcodeMap := ⟨refOpcode, refOpcode_injective, rfl⟩

/-- The 32-bit word of a table row's bits, every bit from `nbits` up taken as 0. -/
def tableWord (nbits w : Nat) : Word := BitVec.ofNat 32 (w % 2 ^ nbits)

/-- What the decoder reads, under REF_OPC, from an instruction whose bits are `w`; none where it reads `unknown`. -/
def decodeTableWord (nbits w : Nat) : Option Instr :=
  match decode refOpc (tableWord nbits w) with
  | .known i => some i
  | .unknown => none

end Sys2Proof
end

