-- ==== Sys2Proof/Machine/State.lean ====
section
/-! DEFINITION. The architectural state of 10_state.md as plain data, the faults of 60_exceptions.md, and the state after
reset (R33). -/

namespace Sys2Proof.Machine

/-- A sparse map from address to word, kept with its addresses strictly rising (Machine/Cells.lean). -/
abbrev CellList := List (Nat × Word)

/-- Main memory (20_memory.md R34): 65536 cells of one 32-bit word, the machine's smallest unit (R45; log entry 3).
A cell not listed holds 0, its value after reset (R33; log entry 4). -/
structure Memory where
  cells : CellList
  deriving DecidableEq, Repr

/-- One cache instance (R38): the lookaside map from address to word, with its hit and miss counters, unbounded
(log entry 15). -/
structure Cache where
  map : CellList
  hits : Nat
  misses : Nat
  deriving DecidableEq, Repr

/-- The flag register (R24). -/
structure Flags where
  z : Bool
  n : Bool
  c : Bool
  v : Bool
  deriving DecidableEq, Repr

/-- The engine's four states (R28, 40_execution_cycle.md R71). Between cycles only `fetch` and `halted` occur. -/
inductive EngineState where
  | fetch
  | decode
  | executeMemWb
  | halted
  deriving DecidableEq, Repr

/-- Everything the core holds: the record `Core` at the head of 10_state.md, field by field. -/
structure State where
  /-- The register file (R13). Register 0 is an ordinary cell (R15, R16). -/
  x : Vector Word 32
  /-- The program counter, a word address (R20, R21). -/
  pc : Word
  /-- The instruction register: the word fetched last (R23). -/
  ir : Word
  flags : Flags
  mem : Memory
  /-- The instruction-side cache: FETCH's alone (R37). It may go stale (R53; log entry 18). -/
  icache : Cache
  /-- The data-side cache: `load`'s and `store`'s alone (R37). -/
  dcache : Cache
  engine : EngineState
  /-- The cycles completed in the current run (R29). -/
  cycles : Nat
  deriving DecidableEq, Repr

/-- The access that an addressing fault came from (60_exceptions.md R134). -/
inductive AccessKind where
  | fetch
  | load
  | store
  deriving DecidableEq, Repr

/-- The machine's two faults. Each ends the run (R133). -/
inductive Fault where
  /-- A main-memory access outside [0, 65536) (R134). Raised by FETCH, `load` and `store`; the hardware's own fault,
  so safe. -/
  | addressing (kind : AccessKind) (addr : Nat)
  /-- A field used as a register index holds 32 to 255 (R135). Raised by DECODE; the spec's reading (its D3), which
  stops where the original may go on, so safe (log entry 7). -/
  | registerIndex (field : RegField) (value : Byte)
  deriving DecidableEq, Repr

/-- Why a step has no meaning. No instruction of this model is refused. -/
inductive Refusal where
  /-- An instruction that has no meaning yet: exec's refused arms only. Safe: nothing follows from it. -/
  | notModelled (mnemonic : String)
  deriving DecidableEq, Repr

/-- What running an instruction ends in. -/
abbrev Result := Host.Outcome State Fault Refusal

/-- The machine after construction (R33, R150, R151): every register 0, pc 0, flags false, memory all 0, both caches
empty, the engine at FETCH. The values are the spec's (its D5); log entry 4 names them. -/
def State.reset : State where
  x := Vector.replicate 32 0#32
  pc := 0#32
  ir := 0#32
  flags := ⟨false, false, false, false⟩
  mem := ⟨[]⟩
  icache := ⟨[], 0, 0⟩
  dcache := ⟨[], 0, 0⟩
  engine := .fetch
  cycles := 0

end Sys2Proof.Machine
end

