-- ==== Sys2Proof/Machine/Flags.lean ====
section
/-! DEFINITION. The flag computation (41_alu.md R86, R107 to R111): which path an operation is on, and what each path
gives C and V. -/

namespace Sys2Proof.Machine

/-- The path of an operation with the operands the path computes with, R86's `(A', B')`. -/
inductive FlagPath where
  | addPath (a b : Word)
  | subPath (a b : Word)
  | logicPath
  deriving DecidableEq, Repr

/-- Bit 31 of a word. -/
def signBit (w : Word) : Bool := w.msb

/-- ADD path: the exact sum exceeds 0xFFFFFFFF (R109). -/
def addCarry (a b : Word) : Bool := decide (a.toNat + b.toNat > 0xFFFFFFFF)

/-- ADD path: the operands' signs agree and the result's differs from them (R109). -/
def addOverflow (a b res : Word) : Bool := signBit a == signBit b && signBit res != signBit a

/-- SUB path: a borrow, `B' > A'` unsigned (R110). -/
def subBorrow (a b : Word) : Bool := decide (b.toNat > a.toNat)

/-- SUB path: the operands' signs differ and the result's differs from the minuend's (R110). -/
def subOverflow (a b res : Word) : Bool := signBit a != signBit b && signBit res != signBit a

/-- All four flags, from scratch (R108): Z and N from the masked result (R107), C and V by the path; both false on the
LOGIC path (R111). -/
def flagsOf (path : FlagPath) (res : Word) : Flags :=
  match path with
  | .addPath a b => ⟨decide (res = 0#32), signBit res, addCarry a b, addOverflow a b res⟩
  | .subPath a b => ⟨decide (res = 0#32), signBit res, subBorrow a b, subOverflow a b res⟩
  | .logicPath => ⟨decide (res = 0#32), signBit res, false, false⟩

end Sys2Proof.Machine
end

