-- ==== Sys2Proof/Machine/Cells.lean ====
section
/-! DEFINITION. Sparse maps from address to word as strictly rising lists: the form main memory and the two cache maps
are kept in, and the reads and writes that keep it. -/

namespace Sys2Proof.Machine

/-- The word listed for address `a`. -/
def Cells.lookup : CellList → Nat → Option Word
  | [], _ => none
  | (k, v) :: rest, a => if k = a then some v else Cells.lookup rest a

/-- The list with `v` listed for `a`, replacing what was. -/
def Cells.insert : CellList → Nat → Word → CellList
  | [], a, v => [(a, v)]
  | (k, w) :: rest, a, v =>
    if a < k then (a, v) :: (k, w) :: rest
    else if a = k then (a, v) :: rest
    else (k, w) :: Cells.insert rest a v

/-- The list with nothing listed for `a`. -/
def Cells.erase : CellList → Nat → CellList
  | [], _ => []
  | (k, w) :: rest, a => if k = a then Cells.erase rest a else (k, w) :: Cells.erase rest a

/-- The addresses rise strictly and start at `lo` or later. -/
def Cells.risingFrom : Nat → CellList → Bool
  | _, [] => true
  | lo, (k, _) :: rest => decide (lo ≤ k) && Cells.risingFrom (k + 1) rest

/-- Strictly rising addresses, all of them addresses of main memory. -/
def Cells.wf (cells : CellList) : Bool :=
  Cells.risingFrom 0 cells && cells.all fun c => decide (c.1 < Config.memWords)

/-- Memory's canonical form: `Cells.wf`, and no cell listed with the 0 an unlisted one reads as. Equal memories are
then equal lists. -/
def Memory.wf (m : Memory) : Bool :=
  Cells.wf m.cells && m.cells.all fun c => decide (c.2 ≠ 0#32)

/-- The word in cell `a`; 0 where none is listed (R33). -/
def Memory.read (m : Memory) (a : Nat) : Word := (Cells.lookup m.cells a).getD 0#32

/-- Memory with `v` in cell `a`, in canonical form. -/
def Memory.write (m : Memory) (a : Nat) (v : Word) : Memory :=
  if v = 0#32 then ⟨Cells.erase m.cells a⟩ else ⟨Cells.insert m.cells a v⟩

/-- A cache's entry for `a`, if it has one (R38). -/
def Cache.lookup (c : Cache) (a : Nat) : Option Word := Cells.lookup c.map a

/-- The cache with entry `v` for `a`, its counters as they were. -/
def Cache.setEntry (c : Cache) (a : Nat) (v : Word) : Cache := { c with map := Cells.insert c.map a v }

/-- The map's form: strictly rising addresses, every one an address of main memory (R40: an entry exists only for an
address that was read or written successfully). -/
def Cache.wf (c : Cache) : Bool := Cells.wf c.map

end Sys2Proof.Machine
end

