-- ==== Sys2Proof/Machine/Ops.lean ====
section
/-! DEFINITION. The named operations over registers, main memory and the caches (00_scope.md R9). The core has no
exception entry and no return from one (60_exceptions.md R133, R141): what ends a run is a fault, answered as an
`Except` here. -/

namespace Sys2Proof.Machine

/-- `x[i]` (R9, R13): register 0 too returns what its cell holds (R16). -/
def State.reg (s : State) (i : Fin 32) : Word := s.x[i]

/-- `RegisterFile.write(i, v)`: no index is protected at this layer (R15). -/
def State.setReg (s : State) (i : Fin 32) (v : Word) : State := { s with x := s.x.set i v }

/-- `WB(i, v)`: the engine's write-back, which drops a write to register 0 (40_execution_cycle.md R81). -/
def State.writeBack (s : State) (i : Fin 32) (v : Word) : State := if i = 0 then s else s.setReg i v

/-- `pc <- target` (R20): any 32-bit value can be held. -/
def State.jumpTo (s : State) (target : Word) : State := { s with pc := target }

/-- An address of main memory: 0 to 65535, compared as it is, neither masked nor wrapped (R34, R36). -/
def inMemory (a : Nat) : Bool := decide (a < Config.memWords)

/-- `Mem.load(a)` (R34). -/
def memLoad (kind : AccessKind) (m : Memory) (a : Nat) : Except Fault Word :=
  if inMemory a then .ok (m.read a) else .error (.addressing kind a)

/-- `Mem.store(a, v)` (R34). -/
def memStore (kind : AccessKind) (m : Memory) (a : Nat) (v : Word) : Except Fault Memory :=
  if inMemory a then .ok (m.write a v) else .error (.addressing kind a)

/-- `CacheLoad(c, a)` (R40): a hit counts and returns the entry; a miss reads memory, fills the map, then counts. A miss
that faults leaves the cache as it was. -/
def cacheLoad (kind : AccessKind) (c : Cache) (m : Memory) (a : Nat) : Except Fault (Word × Cache) :=
  match c.lookup a with
  | some v => .ok (v, { c with hits := c.hits + 1 })
  | none =>
    match memLoad kind m a with
    | .ok v => .ok (v, { c.setEntry a v with misses := c.misses + 1 })
    | .error f => .error f

/-- `CacheStore(c, a, v)` (R41): the memory write comes first (the spec's D14, log entry 10), then the map; no counter
changes and no other instance's map does. -/
def cacheStore (c : Cache) (m : Memory) (a : Nat) (v : Word) : Except Fault (Cache × Memory) :=
  match memStore .store m a v with
  | .ok m' => .ok (c.setEntry a v, m')
  | .error f => .error f

end Sys2Proof.Machine
end

