-- ==== Sys2Proof/Machine/Operands.lean ====
section
/-! DEFINITION. The operand forms of 30_encoding.md R62: a register field (checked against the 32-entry file,
40_execution_cycle.md R77), a branch target, a jump target. The one addressing mode is the value of a register
(43_load_store.md R116). -/

namespace Sys2Proof.Machine

/-- The register-index check of one field (R77): 0 to 31 names a register, 32 to 255 raises `RegisterIndexFault`
(60_exceptions.md R135). -/
def withRegister (field : RegField) (value : Byte) (k : Fin 32 → Result) : Result :=
  if h : value.toNat < 32 then k ⟨value.toNat, h⟩ else .fault (.registerIndex field value)

/-- RA, RB and RC checked in this order (R77), for the R-type instructions whose RC is a register. -/
def withThreeRegisters (ra rb rc : Byte) (k : Fin 32 → Fin 32 → Fin 32 → Result) : Result :=
  withRegister .ra ra fun a => withRegister .rb rb fun b => withRegister .rc rc fun c => k a b c

/-- RA and RB checked in this order (R77), for the branches, whose RC is an address. -/
def withTwoRegisters (ra rb : Byte) (k : Fin 32 → Fin 32 → Result) : Result :=
  withRegister .ra ra fun a => withRegister .rb rb fun b => k a b

/-- A branch target: the RC field as an absolute address, 0 to 255 (R62, 44_control.md R124; log entry 16). -/
def branchTarget (rc : Byte) : Word := rc.setWidth 32

/-- A jump target: the 24-bit field as an absolute address (R62). -/
def jumpTarget (addr24 : BitVec 24) : Word := addr24.setWidth 32

/-- The effective address a register's value gives: all 32 bits of it (R36, R116). -/
def effectiveAddress (s : State) (i : Fin 32) : Nat := (s.reg i).toNat

end Sys2Proof.Machine
end

