-- ==== Sys2Proof/Machine/Alu.lean ====
section
/-! DEFINITION. The arithmetic/logic unit as a pure function (41_alu.md R86), the template every ALU instruction runs
(R88), and the eighteen meanings (R89 to R106). -/

namespace Sys2Proof.Machine

/-- The eighteen operations of the ALU (R86). -/
inductive AluOp where
  | add | sub | zeros | xor | or | not | and | asl | asr | lsl | lsr | passa
  | mul | div | mod | neg | inc | dec
  deriving DecidableEq, Repr

/-- A shift amount: `B & 0x1F` (R96 to R99). -/
def shiftAmount (b : Word) : Nat := (b &&& 0x1F#32).toNat

/-- Shift left, bits shifted out lost (R96, R98). -/
def shiftLeft (a b : Word) : Word := a <<< shiftAmount b

/-- Logical shift right, zero fill (R99). -/
def shiftRight (a b : Word) : Word := a >>> shiftAmount b

/-- Arithmetic shift right: the vacated bits are filled with ones where `A[31]` is set (R97). -/
def shiftRightArith (a b : Word) : Word :=
  if signBit a then (a >>> shiftAmount b) ||| (0xFFFFFFFF#32 <<< (32 - shiftAmount b)) else a >>> shiftAmount b

/-- Unsigned quotient; a zero divisor gives 0 (R102; log entry 13). -/
def divide (a b : Word) : Word := if b = 0#32 then 0#32 else a / b

/-- Unsigned remainder; a zero divisor gives 0 (R103; log entry 13). -/
def modulo (a b : Word) : Word := if b = 0#32 then 0#32 else a % b

/-- The 32-bit result of each operation on `A` and `B` (R89 to R106). -/
def aluResult (op : AluOp) (a b : Word) : Word :=
  match op with
  | .add => a + b
  | .sub => a - b
  | .zeros => 0#32
  | .xor => a ^^^ b
  | .or => a ||| b
  | .not => ~~~a
  | .and => a &&& b
  | .asl => shiftLeft a b
  | .asr => shiftRightArith a b
  | .lsl => shiftLeft a b
  | .lsr => shiftRight a b
  | .passa => a
  | .mul => a * b
  | .div => divide a b
  | .mod => modulo a b
  | .neg => 0#32 - a
  | .inc => a + 1#32
  | .dec => a - 1#32

/-- The path of each operation, with the operands the path computes with (R86). -/
def aluPath (op : AluOp) (a b : Word) : FlagPath :=
  match op with
  | .add => .addPath a b
  | .inc => .addPath a 1#32
  | .sub => .subPath a b
  | .neg => .subPath 0#32 a
  | .dec => .subPath a 1#32
  | .zeros | .xor | .or | .not | .and | .asl | .asr | .lsl | .lsr | .passa | .mul | .div | .mod => .logicPath

/-- The four flags of an operation (R107 to R111). -/
def aluFlags (op : AluOp) (a b : Word) : Flags := flagsOf (aluPath op a b) (aluResult op a b)

/-- R88's EXECUTE_MEM_WB on the snapshot of x[RA] and x[RB]: the flags are replaced, also where RC is 0, and the result
is written back to RC. -/
def aluEffect (op : AluOp) (a b c : Fin 32) (s : State) : State :=
  { s with flags := aluFlags op (s.reg a) (s.reg b) }.writeBack c (aluResult op (s.reg a) (s.reg b))

/-- R88's template: the check of RA, RB and RC, then the effect. -/
def aluInstr (op : AluOp) (ra rb rc : Byte) (s : State) : Result :=
  withThreeRegisters ra rb rc fun a b c => .next (aluEffect op a b c s)

/-- add (R89). -/
def execAdd (ra rb rc : Byte) (s : State) : Result := aluInstr .add ra rb rc s
/-- sub (R90). -/
def execSub (ra rb rc : Byte) (s : State) : Result := aluInstr .sub ra rb rc s
/-- zeros (R91): RA and RB are checked and their values ignored. -/
def execZeros (ra rb rc : Byte) (s : State) : Result := aluInstr .zeros ra rb rc s
/-- xor (R92). -/
def execXor (ra rb rc : Byte) (s : State) : Result := aluInstr .xor ra rb rc s
/-- or (R93). -/
def execOr (ra rb rc : Byte) (s : State) : Result := aluInstr .or ra rb rc s
/-- not (R94): RB is checked and its value ignored. -/
def execNot (ra rb rc : Byte) (s : State) : Result := aluInstr .not ra rb rc s
/-- and (R95). -/
def execAnd (ra rb rc : Byte) (s : State) : Result := aluInstr .and ra rb rc s
/-- asl (R96): the same function as lsl (90_conflicts.md C6). -/
def execAsl (ra rb rc : Byte) (s : State) : Result := aluInstr .asl ra rb rc s
/-- asr (R97). -/
def execAsr (ra rb rc : Byte) (s : State) : Result := aluInstr .asr ra rb rc s
/-- lsl (R98). -/
def execLsl (ra rb rc : Byte) (s : State) : Result := aluInstr .lsl ra rb rc s
/-- lsr (R99). -/
def execLsr (ra rb rc : Byte) (s : State) : Result := aluInstr .lsr ra rb rc s
/-- passa (R100): RB is checked and its value ignored. -/
def execPassa (ra rb rc : Byte) (s : State) : Result := aluInstr .passa ra rb rc s
/-- mul (R101). -/
def execMul (ra rb rc : Byte) (s : State) : Result := aluInstr .mul ra rb rc s
/-- div (R102). -/
def execDiv (ra rb rc : Byte) (s : State) : Result := aluInstr .div ra rb rc s
/-- mod (R103). -/
def execMod (ra rb rc : Byte) (s : State) : Result := aluInstr .mod ra rb rc s
/-- neg (R104): RB is checked and its value ignored. -/
def execNeg (ra rb rc : Byte) (s : State) : Result := aluInstr .neg ra rb rc s
/-- inc (R105): RB is checked and its value ignored. -/
def execInc (ra rb rc : Byte) (s : State) : Result := aluInstr .inc ra rb rc s
/-- dec (R106): RB is checked and its value ignored. -/
def execDec (ra rb rc : Byte) (s : State) : Result := aluInstr .dec ra rb rc s

end Sys2Proof.Machine
end

