-- ==== Sys2Proof/Machine/Control.lean ====
section
/-! DEFINITION. Control transfer and halt (44_control.md). On entry pc is already the fetch address plus 1
(40_execution_cycle.md R74). -/

namespace Sys2Proof.Machine

/-- The BRANCH_SIGNED this machine has: the open parameter of Config (00_scope.md R5, log entry 2). -/
def branchSigned : Bool := Config.branchSigned

/-- bgt's relation, under either reading (R127). -/
def branchGreater (signed : Bool) (a b : Word) : Bool :=
  if signed then decide (a.toInt > b.toInt) else decide (a.toNat > b.toNat)

/-- blt's relation, under either reading (R128). -/
def branchLess (signed : Bool) (a b : Word) : Bool :=
  if signed then decide (a.toInt < b.toInt) else decide (a.toNat < b.toNat)

/-- R124: pc becomes the target where the relation holds, and keeps FETCH's increment where it does not. -/
def branchEffect (taken : Bool) (target : Byte) (s : State) : State :=
  if taken then s.jumpTo (branchTarget target) else s

/-- R124's template: RA and RB checked and compared. -/
def branchInstr (cond : Word → Word → Bool) (ra rb target : Byte) (s : State) : Result :=
  withTwoRegisters ra rb fun a b => .next (branchEffect (cond (s.reg a) (s.reg b)) target s)

/-- beq (R125). -/
def execBeq (ra rb target : Byte) (s : State) : Result := branchInstr (fun a b => decide (a = b)) ra rb target s
/-- bne (R126). -/
def execBne (ra rb target : Byte) (s : State) : Result := branchInstr (fun a b => decide (a ≠ b)) ra rb target s
/-- bgt (R127). -/
def execBgt (ra rb target : Byte) (s : State) : Result := branchInstr (branchGreater branchSigned) ra rb target s
/-- blt (R128). -/
def execBlt (ra rb target : Byte) (s : State) : Result := branchInstr (branchLess branchSigned) ra rb target s

/-- j (R121). -/
def execJ (addr24 : BitVec 24) (s : State) : Result := .next (s.jumpTo (jumpTarget addr24))

/-- jal (R122): the link register takes the incremented pc, by a direct write and no write-back. -/
def execJal (addr24 : BitVec 24) (s : State) : Result :=
  .next ((s.setReg Config.linkReg s.pc).jumpTo (jumpTarget addr24))

/-- jr (R123): RA and RB are checked and their values ignored. -/
def execJr (ra rb rc : Byte) (s : State) : Result := withThreeRegisters ra rb rc fun _ _ c => .next (s.jumpTo (s.reg c))

/-- halt (R129): the engine stops; pc keeps FETCH's increment. -/
def execHalt (s : State) : Result := .next { s with engine := .halted }

end Sys2Proof.Machine
end

