-- ==== Sys2Proof/Machine/LoadConstant.lean ====
section
/-! DEFINITION. The load-constant instructions (42_load_constant.md). -/

namespace Sys2Proof.Machine

/-- `(imm16 << 16) | (old & 0x0000FFFF)` (R114). -/
def mergeHigh (old : Word) (imm16 : BitVec 16) : Word := (imm16.setWidth 32 <<< 16) ||| (old &&& 0x0000FFFF#32)

/-- `(old & 0xFFFF0000) | imm16` (R115). -/
def mergeLow (old : Word) (imm16 : BitVec 16) : Word := (old &&& 0xFFFF0000#32) ||| imm16.setWidth 32

/-- R113's template: d checked, x[d] read, merged and written back; the flags stay. -/
def loadConstant (merge : Word → BitVec 16 → Word) (imm16 : BitVec 16) (d : Byte) (s : State) : Result :=
  withRegister .d d fun i => .next (s.writeBack i (merge (s.reg i) imm16))

/-- lcl_msb (R114). -/
def execLclMsb (imm16 : BitVec 16) (d : Byte) (s : State) : Result := loadConstant mergeHigh imm16 d s

/-- lcl_lsb (R115). -/
def execLclLsb (imm16 : BitVec 16) (d : Byte) (s : State) : Result := loadConstant mergeLow imm16 d s

end Sys2Proof.Machine
end

