-- ==== Sys2Proof/Machine/LoadStore.lean ====
section
/-! DEFINITION. The load/store unit (43_load_store.md): whole words, through the data-side cache. -/

namespace Sys2Proof.Machine

/-- load's access and write-back (R117): a fault writes no register. -/
def loadEffect (a c : Fin 32) (s : State) : Result :=
  match cacheLoad .load s.dcache s.mem (effectiveAddress s a) with
  | .ok (v, dcache) => .next ({ s with dcache := dcache }.writeBack c v)
  | .error f => .fault f

/-- store's access (R118): a fault writes neither memory nor the map. -/
def storeEffect (a c : Fin 32) (s : State) : Result :=
  match cacheStore s.dcache s.mem (effectiveAddress s c) (s.reg a) with
  | .ok (dcache, mem) => .next { s with dcache := dcache, mem := mem }
  | .error f => .fault f

/-- load (R117): the address is x[RA], the destination RC; RB is checked and its value ignored. -/
def execLoad (ra rb rc : Byte) (s : State) : Result := withThreeRegisters ra rb rc fun a _ c => loadEffect a c s

/-- store (R118): the data is x[RA], the address x[RC]; RB is checked and its value ignored. -/
def execStore (ra rb rc : Byte) (s : State) : Result := withThreeRegisters ra rb rc fun a _ c => storeEffect a c s

end Sys2Proof.Machine
end

