-- ==== Sys2Proof/Machine/Dispatch.lean ====
section
/-! DEFINITION. The dispatch of EXECUTE_MEM_WB, purely by the instruction (40_execution_cycle.md R79): one arm each. -/

namespace Sys2Proof.Machine

/-- DECODE's register check and EXECUTE_MEM_WB of one instruction, after FETCH. -/
def exec (i : Instr) (s : State) : Host.Outcome State Fault Refusal :=
  match i with
  | .add ra rb rc => Sys2Proof.Machine.execAdd ra rb rc s
  | .sub ra rb rc => Sys2Proof.Machine.execSub ra rb rc s
  | .zeros ra rb rc => Sys2Proof.Machine.execZeros ra rb rc s
  | .xor ra rb rc => Sys2Proof.Machine.execXor ra rb rc s
  | .or ra rb rc => Sys2Proof.Machine.execOr ra rb rc s
  | .not ra rb rc => Sys2Proof.Machine.execNot ra rb rc s
  | .and ra rb rc => Sys2Proof.Machine.execAnd ra rb rc s
  | .asl ra rb rc => Sys2Proof.Machine.execAsl ra rb rc s
  | .asr ra rb rc => Sys2Proof.Machine.execAsr ra rb rc s
  | .lsl ra rb rc => Sys2Proof.Machine.execLsl ra rb rc s
  | .lsr ra rb rc => Sys2Proof.Machine.execLsr ra rb rc s
  | .passa ra rb rc => Sys2Proof.Machine.execPassa ra rb rc s
  | .lclMsb imm16 d => Sys2Proof.Machine.execLclMsb imm16 d s
  | .lclLsb imm16 d => Sys2Proof.Machine.execLclLsb imm16 d s
  | .load ra rb rc => Sys2Proof.Machine.execLoad ra rb rc s
  | .store ra rb rc => Sys2Proof.Machine.execStore ra rb rc s
  | .jal addr24 => Sys2Proof.Machine.execJal addr24 s
  | .jr ra rb rc => Sys2Proof.Machine.execJr ra rb rc s
  | .beq ra rb target => Sys2Proof.Machine.execBeq ra rb target s
  | .bne ra rb target => Sys2Proof.Machine.execBne ra rb target s
  | .j addr24 => Sys2Proof.Machine.execJ addr24 s
  | .mul ra rb rc => Sys2Proof.Machine.execMul ra rb rc s
  | .div ra rb rc => Sys2Proof.Machine.execDiv ra rb rc s
  | .mod ra rb rc => Sys2Proof.Machine.execMod ra rb rc s
  | .neg ra rb rc => Sys2Proof.Machine.execNeg ra rb rc s
  | .inc ra rb rc => Sys2Proof.Machine.execInc ra rb rc s
  | .dec ra rb rc => Sys2Proof.Machine.execDec ra rb rc s
  | .bgt ra rb target => Sys2Proof.Machine.execBgt ra rb target s
  | .blt ra rb target => Sys2Proof.Machine.execBlt ra rb target s
  | .halt => Sys2Proof.Machine.execHalt s

end Sys2Proof.Machine
end

