-- ==== Sys2Proof/Machine/Cycle.lean ====
section
/-! DEFINITION. One engine cycle (40_execution_cycle.md R71 to R85): FETCH, DECODE, EXECUTE_MEM_WB, for every opcode map.
Machine/Step.lean calls it with REF_OPC. -/

namespace Sys2Proof.Machine

/-- FETCH (R72 to R74): the word at pc through the instruction-side cache, latched into ir, and pc advanced by 1. A fault
commits nothing (60_exceptions.md R139). -/
def fetchStage (s : State) : Except Fault State :=
  match cacheLoad .fetch s.icache s.mem s.pc.toNat with
  | .ok (w, icache) => .ok { s with ir := w, pc := s.pc + 1#32, icache := icache, engine := .decode }
  | .error f => .error f

/-- EXECUTE_MEM_WB of an unknown opcode: nothing (R80). -/
def execUnknown (s : State) : Result := .next s

/-- DECODE hands the instruction over (R75); its own register check stands at the head of each meaning (R77). -/
def executeStage (d : Decoded) (s : State) : Result :=
  match d with
  | .known i => exec i { s with engine := .executeMemWb }
  | .unknown => execUnknown { s with engine := .executeMemWb }

/-- The engine's state after EXECUTE_MEM_WB: HALTED where halt made it so, else FETCH (R71). -/
def nextEngine : EngineState → EngineState
  | .halted => .halted
  | .fetch | .decode | .executeMemWb => .fetch

/-- The end of a cycle: counted, and back to FETCH unless halted (R71, R85). -/
def State.completeCycle (s : State) : State := { s with cycles := s.cycles + 1, engine := nextEngine s.engine }

/-- A cycle that ends in a fault does not complete (R85). -/
def finishCycle (r : Result) : Result :=
  match r with
  | .next s => .next s.completeCycle
  | .fault f => .fault f
  | .refused w => .refused w

/-- One full cycle under the opcode map `opc` (R71). -/
def runCycle (opc : OpcodeMap) (s : State) : Result :=
  match fetchStage s with
  | .ok s' => finishCycle (executeStage (decode opc s'.ir) s')
  | .error f => .fault f

/-- `step()` (R71, R84): on a HALTED engine nothing changes; otherwise one cycle, from a stage's state too, which no run
holds between cycles (log entries 11, 12). -/
def stepWith (opc : OpcodeMap) (s : State) : Result :=
  match s.engine with
  | .halted => .next s
  | .fetch | .decode | .executeMemWb => runCycle opc s

/-- The state with word `w` where FETCH reads its next instruction: the icache entry for pc where there is one, else
the memory cell (R40, R72); and the engine at FETCH (log entry 11). -/
def placeFetchWord (s : State) (w : Word) : State :=
  match s.icache.lookup s.pc.toNat with
  | some _ => { s with icache := s.icache.setEntry s.pc.toNat w, engine := .fetch }
  | none =>
    if inMemory s.pc.toNat then { s with mem := s.mem.write s.pc.toNat w, engine := .fetch } else s

end Sys2Proof.Machine
end

