-- ==== Sys2Proof/Machine/Step.lean ====
section
/-! DEFINITION. The machine's step: one cycle under REF_OPC (30_encoding.md R64, log entry 1). -/

namespace Sys2Proof.Machine

/-- One step of the machine (40_execution_cycle.md R71). -/
def step : State → Host.Outcome State Fault Refusal := stepWith refOpc

/-- The state whose next step fetches and runs the instruction whose bits are `w`. -/
def State.withFetchWord (s : State) (nbits w : Nat) : State := placeFetchWord s (tableWord nbits w)

end Sys2Proof.Machine
end

