-- ==== Sys2Proof/Machine/HostOps.lean ====
section
/-! DEFINITION. What the host does to the core and sees of it (00_scope.md R3): load_program and register preloads before
the first cycle, run, snapshot, the per-cycle record, the fault report, and the loader's text form. -/

namespace Sys2Proof.Machine

/-- Why a host write before the run is turned away. -/
inductive HostError where
  /-- An address of 65536 or more: the load's `AddressingFault` (70_reset_and_hazards.md R153). -/
  | addressing (addr : Nat)
  /-- The first cycle has run: the host writes nothing any more (R155, R160). -/
  | runBegun
  deriving DecidableEq, Repr

/-- No cycle has fetched yet: every cycle counts one icache hit or miss (R44, R72; log entry 9). -/
def beforeFirstCycle (s : State) : Bool := decide (s.icache.hits = 0 ∧ s.icache.misses = 0)

/-- The loader's writes, in order, directly to main memory and masked to 32 bits (R153). -/
def storeWords : Memory → List (Nat × Int) → Except HostError Memory
  | m, [] => .ok m
  | m, (a, v) :: rest => if inMemory a then storeWords (m.write a (mask32 v)) rest else .error (.addressing a)

/-- `load_program(words_by_address)` (R153): only before the first cycle; neither cache is touched. -/
def loadProgram (words : List (Nat × Int)) (s : State) : Except HostError State :=
  if beforeFirstCycle s then
    match storeWords s.mem words with
    | .ok mem => .ok { s with mem := mem }
    | .error e => .error e
  else .error .runBegun

/-- A host preload of a general register, r0 included, masked to 32 bits (R155). -/
def preload (i : Fin 32) (v : Int) (s : State) : Except HostError State :=
  if beforeFirstCycle s then .ok (s.setReg i (mask32 v)) else .error .runBegun

/-- A line of the loader's text form (R154): a directive, whose spelling the source does not give, or the characters
of one word. -/
inductive LoaderLine where
  | directive (address : Nat)
  | bits (chars : List Char)
  deriving DecidableEq, Repr

/-- The number a string of '0' and '1' spells, its first character the highest bit (R154); none for another character. -/
def bitsValue : Nat → List Char → Option Nat
  | acc, [] => some acc
  | acc, ch :: rest =>
    if ch = '0' then bitsValue (2 * acc) rest else if ch = '1' then bitsValue (2 * acc + 1) rest else none

/-- The pairs the lines stand for, from the address the next word goes to (R154). None where a line is no word of 32
characters: what the loader does then is outside the core. -/
def loaderPairs : Nat → List LoaderLine → Option (List (Nat × Int))
  | _, [] => some []
  | _, .directive a :: rest => loaderPairs a rest
  | a, .bits chars :: rest =>
    if chars.length = 32 then
      match bitsValue 0 chars, loaderPairs (a + 1) rest with
      | some v, some pairs => some ((a, Int.ofNat v) :: pairs)
      | _, _ => none
    else none

/-- The pairs of a whole program text: the first word goes to address 0 unless a directive comes first (R154). -/
def loaderProgram (lines : List LoaderLine) : Option (List (Nat × Int)) := loaderPairs 0 lines

/-- `snapshot()` (R31, R159). -/
structure Snapshot where
  pc : Word
  ir : Word
  registers : Vector Word 32
  flags : Flags
  deriving DecidableEq, Repr

/-- `snapshot()` of a state between cycles (R159). -/
def snapshot (s : State) : Snapshot := ⟨s.pc, s.ir, s.x, s.flags⟩

/-- The operand fields of a record; a field outside the instruction's shape is 0 (40_execution_cycle.md R83). `rc` is
also the I-type d and a branch's target. -/
structure RecordFields where
  ra : Byte
  rb : Byte
  rc : Byte
  imm16 : BitVec 16
  addr24 : BitVec 24
  deriving DecidableEq, Repr

/-- The per-cycle decoded-instruction record (R83; its layout, log entry 17): a side channel that nothing in the core
reads. The mnemonic is none for `unknown`. -/
structure DecodedRecord where
  address : Word
  rawBits : Word
  opcode : Byte
  mnemonic : Option Mnemonic
  fields : RecordFields
  deriving DecidableEq, Repr

/-- The fields a shape's record shows. -/
def recordFields (shape : Shape) (w : Word) : RecordFields :=
  match shape with
  | .r => ⟨raOf w, rbOf w, rcOf w, 0#16, 0#24⟩
  | .i => ⟨0#8, 0#8, rcOf w, immediate16Of w, 0#24⟩
  | .j => ⟨0#8, 0#8, 0#8, 0#16, address24Of w⟩
  | .none => ⟨0#8, 0#8, 0#8, 0#16, 0#24⟩

/-- The record of word `w` fetched at `a` (R83): for an unknown opcode the opcode and all fields are zero. -/
def decodedRecord (opc : OpcodeMap) (a w : Word) : DecodedRecord :=
  match opc.mnemonicOf (opcodeOf w) with
  | some m => ⟨a, w, opcodeOf w, some m, recordFields m.shape w⟩
  | none => ⟨a, w, 0#8, none, recordFields .none w⟩

/-- The fault report (60_exceptions.md R137): the fault, the failing cycle's number, the instruction's address, and its
word where FETCH succeeded. -/
structure FaultReport where
  fault : Fault
  cycle : Nat
  address : Word
  word : Option Word
  deriving DecidableEq, Repr

/-- The report of a cycle that began in `s` and ended in fault `f` (R137). -/
def faultReport (s : State) (f : Fault) : FaultReport :=
  match fetchStage s with
  | .ok s' => ⟨f, s.cycles + 1, s.pc, some s'.ir⟩
  | .error _ => ⟨f, s.cycles + 1, s.pc, none⟩

/-- The state a faulting cycle that began in `s` leaves (60_exceptions.md R139): nothing of the cycle after a FETCH fault,
FETCH's effects after a DECODE or EXECUTE_MEM_WB fault. The run ends without entering a state (R71), so the engine's is
the one the cycle began in. -/
def faultState (s : State) : State :=
  match fetchStage s with
  | .ok s' => { s' with engine := s.engine }
  | .error _ => s

/-- What `step()` returns to the host (70_reset_and_hazards.md R158). -/
inductive StepReturn where
  | record (r : DecodedRecord)
  | halted
  | fault (report : FaultReport)
  | refused (reason : Refusal)
  deriving DecidableEq, Repr

/-- The host's view of one step: what it returns and the state it leaves (R71, R84, R137, R139). `refused` is the
model's own outcome and no instruction raises it. -/
def hostStep (opc : OpcodeMap) (s : State) : StepReturn × State :=
  match stepWith opc s with
  | .fault f => (.fault (faultReport s f), faultState s)
  | .refused w => (.refused w, s)
  | .next t =>
    match s.engine with
    | .halted => (.halted, t)
    | .fetch | .decode | .executeMemWb => (.record (decodedRecord opc s.pc t.ir), t)

/-- How a run ends (60_exceptions.md R149, 70_reset_and_hazards.md R166). `refused` is the model's own and no instruction
raises it. -/
inductive RunOutcome where
  | halted (s : State)
  | cycleLimitExceeded (s : State)
  | fault (report : FaultReport) (s : State)
  | refused (reason : Refusal) (s : State)
  deriving DecidableEq, Repr

/-- The loop of R157 with `fuel` cycles left: the halt test comes after each step. -/
def runLoop (opc : OpcodeMap) : Nat → State → RunOutcome
  | 0, s => .cycleLimitExceeded s
  | fuel + 1, s =>
    match stepWith opc s with
    | .fault f => .fault (faultReport s f) (faultState s)
    | .refused w => .refused w s
    | .next t =>
      match t.engine with
      | .halted => .halted t
      | .fetch | .decode | .executeMemWb => runLoop opc fuel t

/-- `run(max_cycles)` (R157): a HALTED engine runs no cycle; otherwise cycles starts at 0 (log entry 14). -/
def run (opc : OpcodeMap) (maxCycles : Nat) (s : State) : RunOutcome :=
  match s.engine with
  | .halted => .halted s
  | .fetch | .decode | .executeMemWb => runLoop opc maxCycles { s with cycles := 0 }

/-- `run()` with the default bound of 1000 cycles (R157). -/
def runDefault (opc : OpcodeMap) (s : State) : RunOutcome := run opc Config.maxCycles s

end Sys2Proof.Machine
end

