-- ==== Sys2Proof/Safety.lean ====
section
/-! DEFINITION. The terms claims use: the invariant a run keeps, what it means that two states agree, and when an access
is in range. -/

namespace Sys2Proof.Machine

/-- What holds between cycles of every run: memory and both cache maps in their form, each dcache entry equal to memory
(20_memory.md R55), and the engine at FETCH or HALTED (10_state.md R28). The icache may be stale (R53), so nothing is
said of its values. -/
structure State.Inv (s : State) : Prop where
  mem_wf : s.mem.wf = true
  icache_wf : s.icache.wf = true
  dcache_wf : s.dcache.wf = true
  dcache_coherent : ∀ a v, s.dcache.lookup a = some v → s.mem.read a = v
  between_cycles : s.engine = .fetch ∨ s.engine = .halted

/-- Every register but those in `written` holds in `t` what it holds in `s`. -/
def RegistersKept (written : List (Fin 32)) (s t : State) : Prop := ∀ i, i ∉ written → t.reg i = s.reg i

/-- Every memory cell but those in `written` reads in `t` what it reads in `s`. -/
def MemoryKept (written : List Nat) (s t : State) : Prop := ∀ a, a ∉ written → t.mem.read a = s.mem.read a

/-- What no instruction's DECODE and EXECUTE_MEM_WB touches: the instruction register, the instruction-side cache (FETCH's
alone) and the cycle count. -/
def FetchStateKept (s t : State) : Prop := t.ir = s.ir ∧ t.icache = s.icache ∧ t.cycles = s.cycles

/-- Two states that differ at most in their flags. -/
def AgreeButFlags (s t : State) : Prop := { s with flags := t.flags } = t

/-- Two outcomes of the same kind: the same fault or refusal, or next states that differ at most in their flags. -/
def OutcomesAgreeButFlags : Result → Result → Prop
  | .next s, .next t => AgreeButFlags s t
  | .fault f, .fault g => f = g
  | .refused v, .refused w => v = w
  | _, _ => False

/-- The ALU operation an instruction runs, with its fields; none for an instruction outside the ALU family. -/
def aluOperation : Instr → Option (AluOp × Byte × Byte × Byte)
  | .add ra rb rc => some (.add, ra, rb, rc)
  | .sub ra rb rc => some (.sub, ra, rb, rc)
  | .zeros ra rb rc => some (.zeros, ra, rb, rc)
  | .xor ra rb rc => some (.xor, ra, rb, rc)
  | .or ra rb rc => some (.or, ra, rb, rc)
  | .not ra rb rc => some (.not, ra, rb, rc)
  | .and ra rb rc => some (.and, ra, rb, rc)
  | .asl ra rb rc => some (.asl, ra, rb, rc)
  | .asr ra rb rc => some (.asr, ra, rb, rc)
  | .lsl ra rb rc => some (.lsl, ra, rb, rc)
  | .lsr ra rb rc => some (.lsr, ra, rb, rc)
  | .passa ra rb rc => some (.passa, ra, rb, rc)
  | .mul ra rb rc => some (.mul, ra, rb, rc)
  | .div ra rb rc => some (.div, ra, rb, rc)
  | .mod ra rb rc => some (.mod, ra, rb, rc)
  | .neg ra rb rc => some (.neg, ra, rb, rc)
  | .inc ra rb rc => some (.inc, ra, rb, rc)
  | .dec ra rb rc => some (.dec, ra, rb, rc)
  | .lclMsb _ _ | .lclLsb _ _ | .load _ _ _ | .store _ _ _ | .jal _ | .jr _ _ _ | .j _ => none
  | .beq _ _ _ | .bne _ _ _ | .bgt _ _ _ | .blt _ _ _ | .halt => none

/-- The register an instruction's row of R18's table gives as written, as the field that names it: RC or d through
write-back, 31 for jal; none for the others. -/
def destination : Instr → Option Byte
  | .add _ _ rc | .sub _ _ rc | .zeros _ _ rc | .xor _ _ rc | .or _ _ rc | .not _ _ rc | .and _ _ rc
  | .asl _ _ rc | .asr _ _ rc | .lsl _ _ rc | .lsr _ _ rc | .passa _ _ rc
  | .mul _ _ rc | .div _ _ rc | .mod _ _ rc | .neg _ _ rc | .inc _ _ rc | .dec _ _ rc | .load _ _ rc => some rc
  | .lclMsb _ d | .lclLsb _ d => some d
  | .jal _ => some 31#8
  | .store _ _ _ | .jr _ _ _ | .j _ | .beq _ _ _ | .bne _ _ _ | .bgt _ _ _ | .blt _ _ _ | .halt => none

/-- The control-transfer instructions (44_control.md R120): the ones that may write pc in EXECUTE_MEM_WB. -/
def transfersControl : Instr → Bool
  | .j _ | .jal _ | .jr _ _ _ | .beq _ _ _ | .bne _ _ _ | .bgt _ _ _ | .blt _ _ _ => true
  | .add _ _ _ | .sub _ _ _ | .zeros _ _ _ | .xor _ _ _ | .or _ _ _ | .not _ _ _ | .and _ _ _
  | .asl _ _ _ | .asr _ _ _ | .lsl _ _ _ | .lsr _ _ _ | .passa _ _ _
  | .mul _ _ _ | .div _ _ _ | .mod _ _ _ | .neg _ _ _ | .inc _ _ _ | .dec _ _ _
  | .lclMsb _ _ | .lclLsb _ _ | .load _ _ _ | .store _ _ _ | .halt => false

/-- Bits 23 to 0 of an instruction's word, as a number, by R68's formulas. -/
def operandBits : Instr → Nat
  | .add ra rb rc | .sub ra rb rc | .zeros ra rb rc | .xor ra rb rc | .or ra rb rc | .not ra rb rc
  | .and ra rb rc | .asl ra rb rc | .asr ra rb rc | .lsl ra rb rc | .lsr ra rb rc | .passa ra rb rc
  | .mul ra rb rc | .div ra rb rc | .mod ra rb rc | .neg ra rb rc | .inc ra rb rc | .dec ra rb rc
  | .load ra rb rc | .store ra rb rc | .jr ra rb rc
  | .beq ra rb rc | .bne ra rb rc | .bgt ra rb rc | .blt ra rb rc =>
    ra.toNat * 2 ^ 16 + rb.toNat * 2 ^ 8 + rc.toNat
  | .lclMsb imm16 d | .lclLsb imm16 d => imm16.toNat * 2 ^ 8 + d.toNat
  | .j addr24 | .jal addr24 => addr24.toNat
  | .halt => 0

/-- A run of `k` steps under `opc`: the state after them, if none faults. -/
def stepsWith (opc : OpcodeMap) : Nat → State → Option State
  | 0, s => some s
  | k + 1, s =>
    match stepWith opc s with
    | .next t => stepsWith opc k t
    | .fault _ | .refused _ => none

/-- The states the host can launch a run from (70_reset_and_hazards.md R156): reset, then program loads and register
preloads, in any number and order. -/
inductive Launched : State → Prop where
  | reset : Launched State.reset
  | load {s t : State} (words : List (Nat × Int)) (hs : Launched s) (h : loadProgram words s = .ok t) : Launched t
  | preload {s t : State} (i : Fin 32) (v : Int) (hs : Launched s) (h : preload i v s = .ok t) : Launched t

/-- A step under `opc` completes with pc at `target`, and the step after it faults on the fetch of `target` and leaves
the state as it was (44_control.md R131, 60_exceptions.md R139). -/
def CompletesThenFetchFaults (opc : OpcodeMap) (s : State) (target : Nat) : Prop :=
  ∃ t, stepWith opc s = .next t ∧ t.pc.toNat = target ∧ t.engine = .fetch ∧
    stepWith opc t = .fault (.addressing .fetch target) ∧ faultState t = t

end Sys2Proof.Machine
end

