-- ==== Sys2Proof/Certificates/Slice0/Obligations.lean ====
section
/-! DEFINITION. The statements for the provers, each a rule of the spec said of this model. `opc` ranges over every
opcode map R63 allows, `refOpc` among them. -/

open Sys2Proof Sys2Proof.Machine

/-! ## Values, encoding and decoding -/

/-- R7: `mask32(v) = v mod 2^32` for every integer, negative ones and those beyond 32 bits included. -/
def Obligations.MaskIsValueModuloTwoToThe32 : Prop :=
  ∀ v : Int, ((mask32 v).toNat : Int) = v % 2 ^ 32 ∧ 0 ≤ v % 2 ^ 32 ∧ v % 2 ^ 32 < 2 ^ 32

/-- R61: the opcode and the five views of a word as numbers, how they overlap, and the raw bits the record shows. -/
def Obligations.FiveViewsOfAWord : Prop :=
  ∀ w : Word,
    (opcodeOf w).toNat = w.toNat / 2 ^ 24 ∧
    (raOf w).toNat = w.toNat / 2 ^ 16 % 2 ^ 8 ∧
    (rbOf w).toNat = w.toNat / 2 ^ 8 % 2 ^ 8 ∧
    (rcOf w).toNat = w.toNat % 2 ^ 8 ∧
    (immediate16Of w).toNat = w.toNat / 2 ^ 8 % 2 ^ 16 ∧
    (address24Of w).toNat = w.toNat % 2 ^ 24 ∧
    (immediate16Of w).toNat / 2 ^ 8 = (raOf w).toNat ∧
    (address24Of w).toNat % 2 ^ 8 = (rcOf w).toNat ∧
    ∀ opc a, (decodedRecord opc a w).rawBits = w

/-- R68: decoding an encoded instruction gives it back, for every instruction and every field value, and the word is
R68's sum of the shifted opcode and fields; halt's word is 0xFF000000. -/
def Obligations.DecodingAnEncodedInstructionGivesItBack : Prop :=
  ∀ opc : OpcodeMap,
    (∀ i, decode opc (encode opc i) = .known i) ∧
    (∀ i, (encode opc i).toNat = (opc.value i.mnemonic).toNat * 2 ^ 24 + operandBits i) ∧
    encode opc .halt = 0xFF000000#32

/-- From R61 and R68: encoding what a word decodes to gives the word back, so the decoder drops no bit; halt alone
ignores bits (R67, the spec's decision D7). -/
def Obligations.EncodingADecodedWordGivesItBack : Prop :=
  ∀ (opc : OpcodeMap) (w : Word) (i : Instr), decode opc w = .known i → i ≠ .halt → encode opc i = w

/-- R63: a word decodes as the mnemonic whose opcode its top byte is, and as unknown exactly where it is no mnemonic's;
0xFF is halt's and no other mnemonic's. -/
def Obligations.OpcodeByteSelectsTheMnemonic : Prop :=
  ∀ (opc : OpcodeMap) (w : Word),
    (∀ m, (opc.value m).toNat = w.toNat / 2 ^ 24 → ∃ i, decode opc w = .known i ∧ i.mnemonic = m) ∧
    (decode opc w = .unknown ↔ ∀ m, (opc.value m).toNat ≠ w.toNat / 2 ^ 24) ∧
    ∀ m, opc.value m = 0xFF#8 ↔ m = .halt

/-- From R66, R68 and R69 (R69's operand orders are the spec's decision D2, the unused bits D15; a list that does not
fit gives none, log entry 19): a mnemonic's ordered operands encode to a word that decodes to the mnemonic with every
operand in its field, every field of the shape that the mnemonic does not use is 0, and the word is the decoded
instruction's. -/
def Obligations.EncodingAnOperandListZeroFills : Prop :=
  ∀ (opc : OpcodeMap) (m : Mnemonic) (operands : List Nat),
    (List.Forall₂ (fun f v => v < 2 ^ f.width) m.operandFields operands →
      ∃ w i, encodeOperands opc m operands = some w ∧ decode opc w = .known i ∧ i.mnemonic = m ∧ encode opc i = w ∧
        List.Forall₂ (fun f v => f.read w = v) m.operandFields operands ∧
        ∀ f ∈ m.shape.fields, f ∉ m.operandFields → f.read w = 0) ∧
    (¬ List.Forall₂ (fun f v => v < 2 ^ f.width) m.operandFields operands → encodeOperands opc m operands = none)

/-- R67 (the spec's decision D7): every word with top byte 0xFF is halt, whatever bits 23 to 0 hold, and no other. -/
def Obligations.HaltIsItsOpcodeByteAlone : Prop :=
  ∀ (opc : OpcodeMap) (w : Word), decode opc w = .known .halt ↔ w.toNat / 2 ^ 24 = 255

/-- Words written out from R57 to R59 decode to the instructions they stand for, under REF_OPC (R64; log entry 1). The
words are 95_test_vectors.md's. -/
def Obligations.ReferenceWordsDecode : Prop :=
  decode refOpc 0x01010203#32 = .known (.add 1 2 3) ∧
  decode refOpc 0x021E1D1F#32 = .known (.sub 30 29 31) ∧
  decode refOpc 0x0FBEEF01#32 = .known (.lclLsb 0xBEEF 1) ∧
  decode refOpc 0x0E800107#32 = .known (.lclMsb 0x8001 7) ∧
  decode refOpc 0x11010002#32 = .known (.store 1 0 2) ∧
  decode refOpc 0x10020003#32 = .known (.load 2 0 3) ∧
  decode refOpc 0x1401020A#32 = .known (.beq 1 2 10) ∧
  decode refOpc 0x12000100#32 = .known (.jal 0x100) ∧
  decode refOpc 0x16FFFFFF#32 = .known (.j 0xFFFFFF) ∧
  decode refOpc 0xFFFFFFFF#32 = .known .halt ∧
  decode refOpc 0x0D123456#32 = .unknown

/-! ## Reset, the host, the invariant -/

/-- R33, R150, R151 (its values are the spec's decision D5; log entry 4): the state after reset. -/
def Obligations.ResetLeavesTheStatedState : Prop :=
  (∀ i, State.reset.reg i = 0#32) ∧ State.reset.pc = 0#32 ∧ State.reset.ir = 0#32 ∧
  State.reset.flags = ⟨false, false, false, false⟩ ∧ (∀ a, State.reset.mem.read a = 0#32) ∧
  (∀ a, State.reset.icache.lookup a = none) ∧ (∀ a, State.reset.dcache.lookup a = none) ∧
  State.reset.icache.hits = 0 ∧ State.reset.icache.misses = 0 ∧
  State.reset.dcache.hits = 0 ∧ State.reset.dcache.misses = 0 ∧
  State.reset.engine = .fetch ∧ State.reset.cycles = 0

/-- The invariant holds at reset. -/
def Obligations.ResetMeetsTheInvariant : Prop := State.reset.Inv

/-- Every step keeps the invariant, from every state that has it: canonical memory (log entry 3), well-formed cache maps
(R40), a dcache that equals memory at every entry (R55, derived in the spec), and an engine at FETCH or HALTED (R28). -/
def Obligations.EveryStepKeepsTheInvariant : Prop :=
  (∀ (opc : OpcodeMap) (s t : State), s.Inv → stepWith opc s = .next t → t.Inv) ∧
  (∀ s t : State, s.Inv → step s = .next t → t.Inv)

/-- From R153, R155 and R156 (the spec's decisions D6, D11; log entry 9): every state the host can launch, by any number
of loads and register preloads from reset, meets the invariant, has run no cycle and has an empty dcache; a load into
any state that meets the invariant with an empty dcache keeps it; a preload sets its register, r0 included, and nothing
else. -/
def Obligations.LaunchStatesMeetTheInvariant : Prop :=
  (∀ s, Launched s → s.Inv ∧ beforeFirstCycle s = true ∧ ∀ a, s.dcache.lookup a = none) ∧
  (∀ words s t, s.Inv → (∀ a, s.dcache.lookup a = none) → loadProgram words s = .ok t → t.Inv) ∧
  (∀ (s t : State) (i : Fin 32) (v : Int), preload i v s = .ok t →
    t.reg i = mask32 v ∧ RegistersKept [i] s t ∧ { t with x := s.x } = s ∧ (s.Inv → t.Inv))

/-- From R153 (the spec's decision D11; log entry 9): before the first cycle, loading succeeds exactly where every
address is in memory; then each address reads its last pair's word, masked, every other address reads as before, and
nothing but memory changes. -/
def Obligations.LoaderPlacesTheWords : Prop :=
  ∀ (words : List (Nat × Int)) (s : State), beforeFirstCycle s = true →
    ((∀ p ∈ words, p.1 < 65536) → ∃ t, loadProgram words s = .ok t) ∧
    ((∃ p ∈ words, 65536 ≤ p.1) → ∃ a, 65536 ≤ a ∧ loadProgram words s = .error (.addressing a)) ∧
    (∀ t, loadProgram words s = .ok t →
      { t with mem := s.mem } = s ∧
      ∀ a, t.mem.read a =
        match words.reverse.find? (fun p => p.1 == a) with
        | some p => mask32 p.2
        | none => s.mem.read a)

/-- From R154 (the spec's decision D11; log entry 9): a line of 32 characters, the first of them bit 31, is one word at
the current address; the next word goes one further; a directive sets the address; the first word of a program goes to
address 0 unless a directive comes first. -/
def Obligations.LoaderTextFirstCharacterIsBit31 : Prop :=
  ∀ (a b : Nat) (w : Word) (line : LoaderLine) (rest : List LoaderLine) (pairs : List (Nat × Int)),
    line = .bits ((List.range 32).map fun k => if w.getLsbD (31 - k) then '1' else '0') →
    (loaderPairs (a + 1) rest = some pairs →
      loaderPairs a (line :: rest) = some ((a, (w.toNat : Int)) :: pairs)) ∧
    (loaderPairs a rest = some pairs → loaderPairs b (.directive a :: rest) = some pairs) ∧
    (loaderPairs 1 rest = some pairs → loaderProgram (line :: rest) = some ((0, (w.toNat : Int)) :: pairs)) ∧
    (loaderPairs a rest = some pairs → loaderProgram (.directive a :: rest) = some pairs)

/-- R34 and this model's canonical form (log entry 3): two canonical memories that read alike are the same data. -/
def Obligations.MemoriesThatReadAlikeAreEqual : Prop :=
  ∀ m n : Memory, m.wf = true → n.wf = true → (∀ a, m.read a = n.read a) → m = n

/-! ## Main memory and the caches -/

/-- R34: an access in [0, 65536) reads or replaces exactly that cell; any other address faults, neither masked nor
wrapped. -/
def Obligations.MainMemoryLoadsAndStores : Prop :=
  ∀ (kind : AccessKind) (m : Memory) (a : Nat) (v : Word),
    (a < 65536 → memLoad kind m a = .ok (m.read a) ∧
      ∃ m', memStore kind m a v = .ok m' ∧ m'.read a = v ∧ ∀ b, b ≠ a → m'.read b = m.read b) ∧
    (65536 ≤ a → memLoad kind m a = .error (.addressing kind a) ∧
      memStore kind m a v = .error (.addressing kind a))

/-- R40: a cache load of an address in the map returns the entry and counts a hit; of another address in memory it
returns the memory word, fills the map and counts a miss; outside memory it faults. With a well-formed map a hit never
happens out of range. -/
def Obligations.CacheLoadHitsMissesAndFaults : Prop :=
  ∀ (kind : AccessKind) (c : Cache) (m : Memory) (a : Nat),
    (∀ v, c.lookup a = some v → ∃ c', cacheLoad kind c m a = .ok (v, c') ∧
      c'.map = c.map ∧ c'.hits = c.hits + 1 ∧ c'.misses = c.misses) ∧
    (c.lookup a = none → a < 65536 → ∃ c', cacheLoad kind c m a = .ok (m.read a, c') ∧
      c'.lookup a = some (m.read a) ∧ (∀ b, b ≠ a → c'.lookup b = c.lookup b) ∧
      c'.hits = c.hits ∧ c'.misses = c.misses + 1) ∧
    (c.lookup a = none → 65536 ≤ a → cacheLoad kind c m a = .error (.addressing kind a)) ∧
    (c.wf = true → 65536 ≤ a → c.lookup a = none)

/-- R43: once an address is in a cache's map it stays there, over any number of steps: there is no eviction. -/
def Obligations.CachedAddressesStayCached : Prop :=
  ∀ (opc : OpcodeMap) (k : Nat) (s t : State), stepsWith opc k s = some t →
    ∀ a, ((s.icache.lookup a).isSome = true → (t.icache.lookup a).isSome = true) ∧
      ((s.dcache.lookup a).isSome = true → (t.dcache.lookup a).isSome = true)

/-- R53, R163 (derived in the spec): a fetch leaves the word it latches in the instruction-side cache, and a word once
there is what every later fetch of its address latches, whatever the program stored there meanwhile; an address never
fetched is read from memory. -/
def Obligations.LaterStoresNeverReachAFetchedAddress : Prop :=
  ∀ (opc : OpcodeMap) (k : Nat) (s t u : State), stepsWith opc k s = some t → t.engine ≠ .halted →
    stepWith opc t = .next u →
    (∀ v, s.icache.lookup t.pc.toNat = some v → u.ir = v ∧ t.icache.lookup t.pc.toNat = some v) ∧
    (t.icache.lookup t.pc.toNat = none → u.ir = t.mem.read t.pc.toNat) ∧
    u.icache.lookup t.pc.toNat = some u.ir

/-! ## The ALU -/

/-- R107: after every ALU operation Z says that the result is exactly 0 and N is the result's bit 31. -/
def Obligations.ZeroAndNegativeFollowTheResult : Prop :=
  ∀ (op : AluOp) (a b : Word),
    ((aluFlags op a b).z = true ↔ (aluResult op a b).toNat = 0) ∧
    (aluFlags op a b).n = (aluResult op a b).toNat.testBit 31

/-- R109: the ADD path, of add on (A, B) and of inc on (A, 1): the masked sum, carry beyond 0xFFFFFFFF, overflow where
the operands' signs agree and the result's differs. -/
def Obligations.AddPathResultCarryAndOverflow : Prop :=
  ∀ (op : AluOp) (a b b' : Word), (op = .add ∧ b' = b ∨ op = .inc ∧ b' = 1#32) →
    (aluResult op a b).toNat = (a.toNat + b'.toNat) % 2 ^ 32 ∧
    ((aluFlags op a b).c = true ↔ a.toNat + b'.toNat > 0xFFFFFFFF) ∧
    ((aluFlags op a b).v = true ↔
      a.toNat.testBit 31 = b'.toNat.testBit 31 ∧ (aluResult op a b).toNat.testBit 31 ≠ a.toNat.testBit 31)

/-- R110: the SUB path, of sub on (A, B), neg on (0, A) and dec on (A, 1): the masked difference, the borrow, overflow
where the operands' signs differ and the result's differs from the minuend's. -/
def Obligations.SubPathResultBorrowAndOverflow : Prop :=
  ∀ (op : AluOp) (a b a' b' : Word),
    (op = .sub ∧ a' = a ∧ b' = b ∨ op = .neg ∧ a' = 0#32 ∧ b' = a ∨ op = .dec ∧ a' = a ∧ b' = 1#32) →
    ((aluResult op a b).toNat : Int) = ((a'.toNat : Int) - b'.toNat) % 2 ^ 32 ∧
    ((aluFlags op a b).c = true ↔ b'.toNat > a'.toNat) ∧
    ((aluFlags op a b).v = true ↔
      a'.toNat.testBit 31 ≠ b'.toNat.testBit 31 ∧ (aluResult op a b).toNat.testBit 31 ≠ a'.toNat.testBit 31)

/-- R111: the LOGIC path leaves C and V false, unconditionally. -/
def Obligations.LogicPathClearsCarryAndOverflow : Prop :=
  ∀ (op : AluOp) (a b : Word),
    op ∈ [.zeros, .xor, .or, .not, .and, .asl, .asr, .lsl, .lsr, .passa, .mul, .div, .mod] →
    (aluFlags op a b).c = false ∧ (aluFlags op a b).v = false

/-- R112 (derived in the spec): V treats the operands as two's-complement: on the ADD and SUB paths it is set exactly
where the exact signed result does not fit 32 bits. -/
def Obligations.OverflowIsASignedResultOutOfRange : Prop :=
  ∀ a b : Word,
    ((aluFlags .add a b).v = true ↔ a.toInt + b.toInt < -(2 ^ 31) ∨ 2 ^ 31 ≤ a.toInt + b.toInt) ∧
    ((aluFlags .sub a b).v = true ↔ a.toInt - b.toInt < -(2 ^ 31) ∨ 2 ^ 31 ≤ a.toInt - b.toInt) ∧
    ((aluFlags .neg a b).v = true ↔ 2 ^ 31 ≤ -a.toInt) ∧
    ((aluFlags .inc a b).v = true ↔ 2 ^ 31 ≤ a.toInt + 1) ∧
    ((aluFlags .dec a b).v = true ↔ a.toInt - 1 < -(2 ^ 31))

/-- R104 to R106 (their closed forms are derived in the spec): C and V of neg, inc and dec. -/
def Obligations.NegIncDecFlagsInClosedForm : Prop :=
  ∀ a b : Word,
    ((aluFlags .neg a b).c = true ↔ 0 < a.toNat) ∧ ((aluFlags .neg a b).v = true ↔ a = 0x80000000#32) ∧
    ((aluFlags .inc a b).c = true ↔ a = 0xFFFFFFFF#32) ∧ ((aluFlags .inc a b).v = true ↔ a = 0x7FFFFFFF#32) ∧
    ((aluFlags .dec a b).c = true ↔ a = 0#32) ∧ ((aluFlags .dec a b).v = true ↔ a = 0x80000000#32)

/-- R91 to R95, R100: zeros, xor, or, not, and, passa bit by bit. -/
def Obligations.LogicalResultsBitByBit : Prop :=
  ∀ (a b : Word) (k : Nat), k < 32 →
    (aluResult .zeros a b).getLsbD k = false ∧
    (aluResult .xor a b).getLsbD k = (a.getLsbD k != b.getLsbD k) ∧
    (aluResult .or a b).getLsbD k = (a.getLsbD k || b.getLsbD k) ∧
    (aluResult .not a b).getLsbD k = !a.getLsbD k ∧
    (aluResult .and a b).getLsbD k = (a.getLsbD k && b.getLsbD k) ∧
    (aluResult .passa a b).getLsbD k = a.getLsbD k ∧
    (aluResult .not a b).toNat = 0xFFFFFFFF - a.toNat

/-- R96 to R99: the shift amount is B modulo 32; asl and lsl multiply, lsr divides the unsigned value, asr divides the
signed value rounding down. -/
def Obligations.ShiftsMultiplyAndDivideByPowersOfTwo : Prop :=
  ∀ a b : Word,
    (aluResult .asl a b).toNat = a.toNat * 2 ^ (b.toNat % 32) % 2 ^ 32 ∧
    aluResult .lsl a b = aluResult .asl a b ∧
    (aluResult .lsr a b).toNat = a.toNat / 2 ^ (b.toNat % 32) ∧
    (aluResult .asr a b).toInt = a.toInt / 2 ^ (b.toNat % 32)

/-- R101 to R103 (that the division is unsigned is derived in the spec): the low 32 bits of the exact product; the
unsigned quotient and remainder; 0 for a zero divisor. -/
def Obligations.ProductQuotientAndRemainder : Prop :=
  ∀ a b : Word,
    (aluResult .mul a b).toNat = a.toNat * b.toNat % 2 ^ 32 ∧
    (b = 0#32 → aluResult .div a b = 0#32 ∧ aluResult .mod a b = 0#32 ∧
      aluFlags .div a b = ⟨true, false, false, false⟩ ∧ aluFlags .mod a b = ⟨true, false, false, false⟩) ∧
    (b ≠ 0#32 → (aluResult .div a b).toNat = a.toNat / b.toNat ∧
      (aluResult .mod a b).toNat = a.toNat - b.toNat * (a.toNat / b.toNat) ∧
      (aluResult .mod a b).toNat < b.toNat)

/-- R88 (an RC of 0 still writes the flags by the spec's decision D10; log entry 8): add, sub, zeros, xor, or, not, and,
asl, asr, lsl, lsr, passa, mul, div, mod, neg, inc and dec complete in every state where RA, RB and RC name registers:
the operation on the old x[RA] and x[RB] gives RC (nothing where RC is r0) and all four flags, and nothing else changes.
-/
def Obligations.AluInstructionsComplete : Prop :=
  ∀ (i : Instr) (op : AluOp) (ra rb rc : Byte) (a b c : Fin 32) (s : State),
    aluOperation i = some (op, ra, rb, rc) → ra.toNat = a → rb.toNat = b → rc.toNat = c →
    ∃ t, exec i s = .next t ∧
      t.reg c = (if c = 0 then s.reg 0 else aluResult op (s.reg a) (s.reg b)) ∧
      t.flags = aluFlags op (s.reg a) (s.reg b) ∧
      RegistersKept [c] s t ∧ MemoryKept [] s t ∧ FetchStateKept s t ∧
      t.pc = s.pc ∧ t.dcache = s.dcache ∧ t.engine = s.engine

/-! ## Load constant, load, store -/

/-- R113 to R115 (r0 keeps its value by the spec's decision D10; log entry 8): lcl_msb replaces the high half of x[d]
and lcl_lsb the low half; nothing else changes, the flags included. -/
def Obligations.LoadConstantReplacesOneHalf : Prop :=
  ∀ (imm16 : BitVec 16) (d : Byte) (i : Fin 32) (s : State), d.toNat = i →
    (∃ t, exec (.lclMsb imm16 d) s = .next t ∧
      (t.reg i).toNat = (if i = 0 then (s.reg 0).toNat else imm16.toNat * 2 ^ 16 + (s.reg i).toNat % 2 ^ 16) ∧
      RegistersKept [i] s t ∧ MemoryKept [] s t ∧ FetchStateKept s t ∧
      t.flags = s.flags ∧ t.pc = s.pc ∧ t.dcache = s.dcache ∧ t.engine = s.engine) ∧
    (∃ t, exec (.lclLsb imm16 d) s = .next t ∧
      (t.reg i).toNat = (if i = 0 then (s.reg 0).toNat else (s.reg i).toNat / 2 ^ 16 * 2 ^ 16 + imm16.toNat) ∧
      RegistersKept [i] s t ∧ MemoryKept [] s t ∧ FetchStateKept s t ∧
      t.flags = s.flags ∧ t.pc = s.pc ∧ t.dcache = s.dcache ∧ t.engine = s.engine)

/-- R115: the two load-constant instructions, in either order, load any 32-bit constant into a register other than r0.
-/
def Obligations.TwoLoadConstantsLoadAnyWord : Prop :=
  ∀ (w : Word) (d : Byte) (i : Fin 32) (s : State), d.toNat = i → i ≠ 0 →
    (∃ t u, exec (.lclMsb (w.extractLsb' 16 16) d) s = .next t ∧
      exec (.lclLsb (w.extractLsb' 0 16) d) t = .next u ∧ u.reg i = w) ∧
    (∃ t u, exec (.lclLsb (w.extractLsb' 0 16) d) s = .next t ∧
      exec (.lclMsb (w.extractLsb' 16 16) d) t = .next u ∧ u.reg i = w)

/-- R117, R40 (r0 keeps its value by the spec's decision D10; log entry 8): load from an address in memory that the
dcache does not hold reads memory, fills the map and counts a miss; nothing else changes. -/
def Obligations.LoadMissReadsMemoryAndFills : Prop :=
  ∀ (ra rb rc : Byte) (a b c : Fin 32) (s : State), ra.toNat = a → rb.toNat = b → rc.toNat = c →
    s.dcache.lookup (effectiveAddress s a) = none → effectiveAddress s a < 65536 →
    ∃ t, exec (.load ra rb rc) s = .next t ∧
      t.reg c = (if c = 0 then s.reg 0 else s.mem.read (s.reg a).toNat) ∧
      RegistersKept [c] s t ∧ MemoryKept [] s t ∧ FetchStateKept s t ∧
      t.dcache.lookup (s.reg a).toNat = some (s.mem.read (s.reg a).toNat) ∧
      (∀ k, k ≠ (s.reg a).toNat → t.dcache.lookup k = s.dcache.lookup k) ∧
      t.dcache.hits = s.dcache.hits ∧ t.dcache.misses = s.dcache.misses + 1 ∧
      t.flags = s.flags ∧ t.pc = s.pc ∧ t.engine = s.engine

/-- R117, R40 (r0 keeps its value by the spec's decision D10; log entry 8): load from an address the dcache holds
returns the entry and counts a hit; nothing else changes. -/
def Obligations.LoadHitReturnsTheEntry : Prop :=
  ∀ (ra rb rc : Byte) (a b c : Fin 32) (s : State) (v : Word), ra.toNat = a → rb.toNat = b → rc.toNat = c →
    s.dcache.lookup (effectiveAddress s a) = some v →
    ∃ t, exec (.load ra rb rc) s = .next t ∧
      t.reg c = (if c = 0 then s.reg 0 else v) ∧
      RegistersKept [c] s t ∧ MemoryKept [] s t ∧ FetchStateKept s t ∧
      t.dcache.map = s.dcache.map ∧ t.dcache.hits = s.dcache.hits + 1 ∧ t.dcache.misses = s.dcache.misses ∧
      t.flags = s.flags ∧ t.pc = s.pc ∧ t.engine = s.engine

/-- R50, R55 (derived in the spec; r0 keeps its value by its D10, log entry 8): where every dcache entry equals memory,
a load in range completes and returns what memory holds, hit or miss. -/
def Obligations.LoadReturnsWhatMemoryHolds : Prop :=
  ∀ (ra rb rc : Byte) (a b c : Fin 32) (s : State), ra.toNat = a → rb.toNat = b → rc.toNat = c →
    (∀ k v, s.dcache.lookup k = some v → s.mem.read k = v) → effectiveAddress s a < 65536 →
    ∃ t, exec (.load ra rb rc) s = .next t ∧
      t.reg c = (if c = 0 then s.reg 0 else s.mem.read (effectiveAddress s a)) ∧
      t.dcache.hits + t.dcache.misses = s.dcache.hits + s.dcache.misses + 1

/-- R118, R41: store to an address in memory writes x[RA] to the cell at x[RC] and to the dcache map, and changes no
counter, no register, no flag, no icache entry and no other cell. -/
def Obligations.StoreWritesMemoryAndTheMap : Prop :=
  ∀ (ra rb rc : Byte) (a b c : Fin 32) (s : State), ra.toNat = a → rb.toNat = b → rc.toNat = c →
    effectiveAddress s c < 65536 →
    ∃ t, exec (.store ra rb rc) s = .next t ∧
      t.mem.read (effectiveAddress s c) = s.reg a ∧ MemoryKept [effectiveAddress s c] s t ∧
      t.dcache.lookup (effectiveAddress s c) = some (s.reg a) ∧
      (∀ k, k ≠ effectiveAddress s c → t.dcache.lookup k = s.dcache.lookup k) ∧
      t.dcache.hits = s.dcache.hits ∧ t.dcache.misses = s.dcache.misses ∧
      RegistersKept [] s t ∧ FetchStateKept s t ∧ t.flags = s.flags ∧ t.pc = s.pc ∧ t.engine = s.engine

/-- R117's corner case (source property SP5; r0 keeps its value by the spec's decision D10, log entry 8): a load right
after a store, through any register that holds the same address, returns the stored word and counts a hit. -/
def Obligations.LoadAfterStoreReturnsTheStoredWord : Prop :=
  ∀ (ra rb rc ra' rb' rd : Byte) (a b c a' b' d : Fin 32) (s t : State),
    ra.toNat = a → rb.toNat = b → rc.toNat = c → ra'.toNat = a' → rb'.toNat = b' → rd.toNat = d →
    exec (.store ra rb rc) s = .next t → effectiveAddress t a' = effectiveAddress s c →
    ∃ u, exec (.load ra' rb' rd) t = .next u ∧ u.reg d = (if d = 0 then s.reg 0 else s.reg a) ∧
      u.dcache.hits = t.dcache.hits + 1 ∧ u.dcache.misses = t.dcache.misses

/-! ## Control transfer and halt -/

/-- R121, R122: j sets pc to its 24-bit address; jal first links the incremented pc in register 31. Nothing else
changes. -/
def Obligations.JumpsSetThePcAndJalLinks : Prop :=
  ∀ (addr24 : BitVec 24) (s : State),
    (∃ t, exec (.j addr24) s = .next t ∧ t.pc.toNat = addr24.toNat ∧ RegistersKept [] s t ∧ MemoryKept [] s t ∧
      FetchStateKept s t ∧ t.flags = s.flags ∧ t.dcache = s.dcache ∧ t.engine = s.engine) ∧
    (∃ t, exec (.jal addr24) s = .next t ∧ t.pc.toNat = addr24.toNat ∧ t.reg 31 = s.pc ∧
      RegistersKept [31] s t ∧ MemoryKept [] s t ∧
      FetchStateKept s t ∧ t.flags = s.flags ∧ t.dcache = s.dcache ∧ t.engine = s.engine)

/-- R123: jr sets pc to x[RC], any 32-bit value. Nothing else changes. -/
def Obligations.JumpRegisterSetsThePc : Prop :=
  ∀ (ra rb rc : Byte) (a b c : Fin 32) (s : State), ra.toNat = a → rb.toNat = b → rc.toNat = c →
    ∃ t, exec (.jr ra rb rc) s = .next t ∧ t.pc = s.reg c ∧ RegistersKept [] s t ∧ MemoryKept [] s t ∧
      FetchStateKept s t ∧ t.flags = s.flags ∧ t.dcache = s.dcache ∧ t.engine = s.engine

/-- R124 to R126: beq and bne go to the address in the RC field, 0 to 255, where x[RA] and x[RB] are equal or differ,
and leave pc where they do not. Nothing else changes. -/
def Obligations.EqualityBranchesGoToTheirField : Prop :=
  ∀ (i : Instr) (ra rb target : Byte) (a b : Fin 32) (s : State), ra.toNat = a → rb.toNat = b →
    i = .beq ra rb target ∨ i = .bne ra rb target →
    ∃ t, exec i s = .next t ∧
      t.pc.toNat = (if (s.reg a = s.reg b ↔ i = .beq ra rb target) then target.toNat else s.pc.toNat) ∧
      RegistersKept [] s t ∧ MemoryKept [] s t ∧
      FetchStateKept s t ∧ t.flags = s.flags ∧ t.dcache = s.dcache ∧ t.engine = s.engine

/-- R124, R127, R128: bgt and blt, with BRANCH_SIGNED open (D4; log entry 2): the signed values are compared where it is
true, the unsigned ones where it is false. Nothing else changes. -/
def Obligations.OrderBranchesCompareAsBranchSignedSays : Prop :=
  ∀ (ra rb target : Byte) (a b : Fin 32) (s : State), ra.toNat = a → rb.toNat = b →
    (∃ t, exec (.bgt ra rb target) s = .next t ∧
      t.pc.toNat = (if (branchSigned = true ∧ (s.reg b).toInt < (s.reg a).toInt) ∨
        (branchSigned = false ∧ (s.reg b).toNat < (s.reg a).toNat) then target.toNat else s.pc.toNat) ∧
      RegistersKept [] s t ∧ MemoryKept [] s t ∧
      FetchStateKept s t ∧ t.flags = s.flags ∧ t.dcache = s.dcache ∧ t.engine = s.engine) ∧
    (∃ t, exec (.blt ra rb target) s = .next t ∧
      t.pc.toNat = (if (branchSigned = true ∧ (s.reg a).toInt < (s.reg b).toInt) ∨
        (branchSigned = false ∧ (s.reg a).toNat < (s.reg b).toNat) then target.toNat else s.pc.toNat) ∧
      RegistersKept [] s t ∧ MemoryKept [] s t ∧
      FetchStateKept s t ∧ t.flags = s.flags ∧ t.dcache = s.dcache ∧ t.engine = s.engine)

/-- R129 (halt known by its opcode byte alone: the spec's decision D7): halt completes and stops the engine, nothing
else changing; a cycle that fetches any word with top byte 0xFF halts, with pc at its address plus 1. -/
def Obligations.HaltStopsTheEngine : Prop :=
  (∀ s, ∃ t, exec .halt s = .next t ∧ t.engine = .halted ∧ RegistersKept [] s t ∧ MemoryKept [] s t ∧
    FetchStateKept s t ∧ t.flags = s.flags ∧ t.pc = s.pc ∧ t.dcache = s.dcache) ∧
  (∀ (opc : OpcodeMap) (s : State) (w : Word) (icache : Cache), s.engine ≠ .halted →
    cacheLoad .fetch s.icache s.mem s.pc.toNat = .ok (w, icache) → opcodeOf w = 0xFF#8 →
    ∃ t, stepWith opc s = .next t ∧ t.engine = .halted ∧ t.pc = s.pc + 1#32 ∧ t.ir = w ∧ t.icache = icache ∧
      t.cycles = s.cycles + 1 ∧ RegistersKept [] s t ∧ MemoryKept [] s t ∧ t.flags = s.flags ∧
      t.dcache = s.dcache)

/-- R84 (the spec's decision D16; log entry 11): a HALTED engine stays as it is, over any number of steps. -/
def Obligations.NothingLeavesHalted : Prop :=
  ∀ (opc : OpcodeMap) (k : Nat) (s : State), s.engine = .halted → stepsWith opc k s = some s

/-- R132: halt is the only instruction that changes the engine state between cycles: a cycle that completes ends in
HALTED exactly where the word it fetched decodes to halt, and at FETCH otherwise. -/
def Obligations.OnlyHaltChangesTheEngineState : Prop :=
  ∀ (opc : OpcodeMap) (s t : State), s.engine ≠ .halted → stepWith opc s = .next t →
    (t.engine = .halted ↔ decode opc t.ir = .known .halt) ∧ (t.engine = .halted ∨ t.engine = .fetch)

/-! ## The cycle -/

/-- R71: a step of a running engine whose fetch succeeds runs the instruction the word decodes to, on the state FETCH
left, and counts the cycle; an unknown word runs nothing. The machine's own step is this under REF_OPC (log entry 1). -/
def Obligations.StepRunsTheDecodedInstruction : Prop :=
  (∀ (opc : OpcodeMap) (s : State) (w : Word) (icache : Cache), s.engine ≠ .halted →
    cacheLoad .fetch s.icache s.mem s.pc.toNat = .ok (w, icache) →
    ∀ u, u = { s with ir := w, pc := s.pc + 1#32, icache := icache, engine := .executeMemWb } →
      (∀ i, decode opc w = .known i →
        (∀ t, exec i u = .next t → stepWith opc s =
          .next { t with cycles := t.cycles + 1, engine := if t.engine = .halted then .halted else .fetch }) ∧
        (∀ f, exec i u = .fault f → stepWith opc s = .fault f)) ∧
      (decode opc w = .unknown → stepWith opc s = .next { u with cycles := u.cycles + 1, engine := .fetch })) ∧
  (∀ s, step s = stepWith refOpc s)

/-- From R80 and R83 (the record's layout is the spec's decision D17; log entry 17): a cycle that fetches a word of
unknown opcode completes as a no-op: only FETCH's effects and the cycle count. Its record has the address and the word,
no mnemonic (`unknown`), and the opcode and all operand fields zero. -/
def Obligations.UnknownOpcodeIsANoOp : Prop :=
  ∀ (opc : OpcodeMap) (s : State) (w : Word) (icache : Cache), s.engine ≠ .halted →
    cacheLoad .fetch s.icache s.mem s.pc.toNat = .ok (w, icache) → (∀ m, opc.value m ≠ opcodeOf w) →
    ∃ t, stepWith opc s = .next t ∧ t.pc = s.pc + 1#32 ∧ t.ir = w ∧ t.icache = icache ∧
      t.cycles = s.cycles + 1 ∧ t.engine = .fetch ∧
      RegistersKept [] s t ∧ MemoryKept [] s t ∧ t.flags = s.flags ∧ t.dcache = s.dcache ∧
      hostStep opc s = (.record ⟨s.pc, w, 0#8, none, ⟨0#8, 0#8, 0#8, 0#16, 0#24⟩⟩, t)

/-- R22 (derived in the spec), R74: where the invariant holds, a successful FETCH was of an address in memory and
advances pc by 1 with no wrap-around. -/
def Obligations.FetchAdvancesThePcWithoutWrapping : Prop :=
  ∀ s s' : State, s.Inv → fetchStage s = .ok s' →
    s.pc.toNat ≤ 65535 ∧ s'.pc.toNat = s.pc.toNat + 1 ∧
    RegistersKept [] s s' ∧ s'.flags = s.flags ∧ s'.mem = s.mem ∧ s'.dcache = s.dcache

/-- R44 (with R41: a store counts nothing), R85 (the spec's decision D9; log entry 14): each completed cycle counts 1,
makes exactly one icache access, a hit or a miss, and at most one data access. A cycle that fetched load makes one
counted dcache load, of the address in x[RA], and leaves memory and every other dcache entry; one that fetched store
writes x[RA] to the memory cell and the dcache entry of the address in x[RC] and leaves every other, and the counters;
every other cycle leaves memory and the dcache. -/
def Obligations.EachCycleCountsOnceAndFetchesOnce : Prop :=
  ∀ (opc : OpcodeMap) (s t : State), s.engine ≠ .halted → stepWith opc s = .next t →
    t.cycles = s.cycles + 1 ∧ t.icache.hits + t.icache.misses = s.icache.hits + s.icache.misses + 1 ∧
    (∀ ra rb rc, decode opc t.ir = .known (.load ra rb rc) →
      ∃ a : Fin 32, ra.toNat = a ∧
        t.dcache.hits + t.dcache.misses = s.dcache.hits + s.dcache.misses + 1 ∧ t.mem = s.mem ∧
        t.dcache.lookup (effectiveAddress s a) =
          some ((s.dcache.lookup (effectiveAddress s a)).getD (s.mem.read (effectiveAddress s a))) ∧
        ∀ k, k ≠ effectiveAddress s a → t.dcache.lookup k = s.dcache.lookup k) ∧
    (∀ ra rb rc, decode opc t.ir = .known (.store ra rb rc) →
      ∃ a c : Fin 32, ra.toNat = a ∧ rc.toNat = c ∧
        t.dcache.hits = s.dcache.hits ∧ t.dcache.misses = s.dcache.misses ∧
        t.mem.read (effectiveAddress s c) = s.reg a ∧ MemoryKept [effectiveAddress s c] s t ∧
        t.dcache.lookup (effectiveAddress s c) = some (s.reg a) ∧
        ∀ k, k ≠ effectiveAddress s c → t.dcache.lookup k = s.dcache.lookup k) ∧
    ((∀ ra rb rc, decode opc t.ir ≠ .known (.load ra rb rc) ∧ decode opc t.ir ≠ .known (.store ra rb rc)) →
      t.mem = s.mem ∧ t.dcache = s.dcache)

/-! ## Whole-machine rules -/

/-- R16, R81 (for load and load constant by the spec's decision D10; log entry 8): no instruction writes register 0,
over any number of steps. -/
def Obligations.NoInstructionWritesRegisterZero : Prop :=
  ∀ (opc : OpcodeMap) (k : Nat) (s t : State), stepsWith opc k s = some t → t.reg 0 = s.reg 0

/-- R18's last column: every register but the one the table gives as written keeps its value. -/
def Obligations.OnlyTheDestinationRegisterChanges : Prop :=
  ∀ (i : Instr) (s t : State) (k : Fin 32), exec i s = .next t →
    destination i ≠ some (BitVec.ofNat 8 k.val) → t.reg k = s.reg k

/-- R25 (RC of 0 included by the spec's decision D10; log entry 8): the ALU instructions recompute all four flags from
their operands alone; every other instruction leaves them. -/
def Obligations.OnlyAluInstructionsWriteTheFlags : Prop :=
  ∀ (i : Instr) (s t : State), exec i s = .next t →
    (aluOperation i = none → t.flags = s.flags) ∧
    (∀ op ra rb rc, aluOperation i = some (op, ra, rb, rc) →
      ∃ a b : Fin 32, ra.toNat = a ∧ rb.toNat = b ∧ t.flags = aluFlags op (s.reg a) (s.reg b))

/-- R26: no instruction reads the flags: two states that differ in their flags alone step to the same outcome, or to
next states that differ in their flags at most. -/
def Obligations.NoInstructionReadsTheFlags : Prop :=
  ∀ (opc : OpcodeMap) (s : State) (f : Flags),
    OutcomesAgreeButFlags (stepWith opc s) (stepWith opc { s with flags := f })

/-- R18, R37, R116: only store changes memory, and only the cell whose address is x[RC]; only load and store touch the
dcache. -/
def Obligations.OnlyStoreWritesMemory : Prop :=
  ∀ (i : Instr) (s t : State), exec i s = .next t →
    ((∀ ra rb rc, i ≠ .store ra rb rc) → t.mem = s.mem) ∧
    (∀ ra rb rc, i = .store ra rb rc →
      ∃ c : Fin 32, rc.toNat = c ∧ MemoryKept [effectiveAddress s c] s t) ∧
    ((∀ ra rb rc, i ≠ .store ra rb rc ∧ i ≠ .load ra rb rc) → t.dcache = s.dcache)

/-- R21, R37, R129: no instruction's own effect touches ir, the icache or the cycle count; only control transfers move
pc from FETCH's increment; only halt changes the engine. -/
def Obligations.OnlyControlTransfersMoveThePc : Prop :=
  ∀ (i : Instr) (s t : State), exec i s = .next t →
    FetchStateKept s t ∧ (transfersControl i = false → t.pc = s.pc) ∧ (i ≠ .halt → t.engine = s.engine)

/-! ## Faults and the end of a run -/

/-- R77, R135, R138 (the spec's decision D3; log entry 7): the first field, in the order RA, RB, RC or d alone, that an
instruction uses as a register index and that holds 32 or more raises RegisterIndexFault, whatever the state. -/
def Obligations.FirstBadRegisterFieldFaults : Prop :=
  ∀ i : Instr, (i.wf = true ↔ i.firstBadField = none) ∧
    ∀ (field : RegField) (value : Byte), i.firstBadField = some (field, value) →
      ∀ s, exec i s = .fault (.registerIndex field value)

/-- R134 for data accesses: a load or store whose address is 65536 or more faults with that address. The dcache holds no
such address where its map is well-formed (R40; EveryStepKeepsTheInvariant). -/
def Obligations.DataAccessOutsideMemoryFaults : Prop :=
  ∀ (ra rb rc : Byte) (a b c : Fin 32) (s : State), ra.toNat = a → rb.toNat = b → rc.toNat = c →
    (s.dcache.wf = true → 65536 ≤ (s.reg a).toNat →
      exec (.load ra rb rc) s = .fault (.addressing .load (s.reg a).toNat)) ∧
    (65536 ≤ (s.reg c).toNat → exec (.store ra rb rc) s = .fault (.addressing .store (s.reg c).toNat))

/-- R133, R136: a well-formed instruction completes, or is a load or store that raises an addressing fault of its own
kind at an address outside memory. Nothing is refused, in any step. -/
def Obligations.OnlyLoadAndStoreFaultInExecute : Prop :=
  (∀ (i : Instr) (s : State), i.wf = true →
    (∃ t, exec i s = .next t) ∨
    (∃ ra rb rc a, i = .load ra rb rc ∧ 65536 ≤ a ∧ exec i s = .fault (.addressing .load a)) ∨
    (∃ ra rb rc a, i = .store ra rb rc ∧ 65536 ≤ a ∧ exec i s = .fault (.addressing .store a))) ∧
  (∀ (opc : OpcodeMap) (s : State) (r : Refusal), stepWith opc s ≠ .refused r)

/-- R73 (derived in the spec), R134 for fetches, R139 (its D8; log entry 10), R137 (its D17; log entry 17): with a
well-formed icache map, a running engine's step faults on its fetch exactly where pc is 65536 or more; then nothing of
the cycle is committed and the report has no instruction word. -/
def Obligations.FetchOutsideMemoryFaults : Prop :=
  ∀ (opc : OpcodeMap) (s : State), s.engine ≠ .halted → s.icache.wf = true →
    (stepWith opc s = .fault (.addressing .fetch s.pc.toNat) ↔ 65536 ≤ s.pc.toNat) ∧
    (65536 ≤ s.pc.toNat → faultState s = s ∧
      ∀ f, faultReport s f = ⟨f, s.cycles + 1, s.pc, none⟩)

/-- R131 (derived in the spec), R139 (its D8; log entry 10): a cycle that runs j, jal or jr to a target of 65536 or more
completes with pc at the target, and the next step faults on the fetch of the target and leaves the state as it was. So
it is after any step that completes with pc at 65536 or more on a running engine, sequential execution included. -/
def Obligations.TransferBeyondMemoryFaultsAtTheNextFetch : Prop :=
  (∀ (opc : OpcodeMap) (s : State) (w : Word) (icache : Cache), s.Inv → s.engine ≠ .halted →
    cacheLoad .fetch s.icache s.mem s.pc.toNat = .ok (w, icache) →
    (∀ addr24, decode opc w = .known (.j addr24) ∨ decode opc w = .known (.jal addr24) → 65536 ≤ addr24.toNat →
      CompletesThenFetchFaults opc s addr24.toNat) ∧
    (∀ (ra rb rc : Byte) (a b c : Fin 32), ra.toNat = a → rb.toNat = b → rc.toNat = c →
      decode opc w = .known (.jr ra rb rc) → 65536 ≤ (s.reg c).toNat →
      CompletesThenFetchFaults opc s (s.reg c).toNat)) ∧
  (∀ (opc : OpcodeMap) (s t : State), s.Inv → stepWith opc s = .next t → t.engine ≠ .halted →
    65536 ≤ t.pc.toNat → stepWith opc t = .fault (.addressing .fetch t.pc.toNat) ∧ faultState t = t)

/-- R137, R139 (the spec's decisions D8, D17; log entries 10, 17): what a fault after FETCH leaves and reports: FETCH's
effects alone, the failing cycle's number, the instruction's address and its word. -/
def Obligations.FaultAfterFetchLeavesFetchsEffects : Prop :=
  ∀ (opc : OpcodeMap) (s : State) (w : Word) (icache : Cache) (f : Fault), s.engine ≠ .halted →
    cacheLoad .fetch s.icache s.mem s.pc.toNat = .ok (w, icache) → stepWith opc s = .fault f →
    (∀ a, f ≠ .addressing .fetch a) ∧
    faultState s = { s with ir := w, pc := s.pc + 1#32, icache := icache } ∧
    faultReport s f = ⟨f, s.cycles + 1, s.pc, some w⟩

/-- R149, R157 (the spec's decisions D9 and, for an engine halted before the run, D16; log entries 11, 14; a fault's
report and state are R137's and R139's, D17 and D8, log entries 10, 17): a run ends halted, at the cycle bound, or in a
fault, and in nothing else. A halted run of an engine that was running took 1 to max_cycles cycles, and its state is
that after so many steps with cycles from 0; the bound leaves the state after exactly max_cycles steps; a fault is that
of a step of the state before it, its cycle within the bound. -/
def Obligations.RunEndsInOneOfThreeWays : Prop :=
  ∀ (opc : OpcodeMap) (maxCycles : Nat) (s : State),
    match run opc maxCycles s with
    | .halted t => t.engine = .halted ∧ (s.engine = .halted → t = s) ∧
        (s.engine ≠ .halted → 1 ≤ t.cycles ∧ t.cycles ≤ maxCycles ∧
          stepsWith opc t.cycles { s with cycles := 0 } = some t)
    | .cycleLimitExceeded t => t.engine ≠ .halted ∧ t.cycles = maxCycles ∧
        stepsWith opc maxCycles { s with cycles := 0 } = some t
    | .fault report t => report.cycle = t.cycles + 1 ∧ report.cycle ≤ maxCycles ∧
        ∃ u f, stepsWith opc t.cycles { s with cycles := 0 } = some u ∧ stepWith opc u = .fault f ∧
          report = faultReport u f ∧ t = faultState u
    | .refused _ _ => False
end

