-- ==== Sys2Proof/Laws/Cells.lean ====
section
/-! SUPPORT. Reads after writes on sparse maps, memory and caches, and that every write keeps the canonical form. -/

namespace Sys2Proof.Machine

theorem Cells.lookup_insert_self (cells : CellList) (a : Nat) (v : Word) :
    Cells.lookup (Cells.insert cells a v) a = some v := by
  induction cells with
  | nil => simp [Cells.insert, Cells.lookup]
  | cons c rest ih =>
    obtain ⟨k, w⟩ := c
    simp only [Cells.insert]
    split
    · simp [Cells.lookup]
    · split
      · simp [Cells.lookup]
      · next hk => simp [Cells.lookup, Ne.symm hk, ih]

theorem Cells.lookup_insert_other (cells : CellList) {a b : Nat} (v : Word) (h : b ≠ a) :
    Cells.lookup (Cells.insert cells a v) b = Cells.lookup cells b := by
  induction cells with
  | nil => simp [Cells.insert, Cells.lookup, Ne.symm h]
  | cons c rest ih =>
    obtain ⟨k, w⟩ := c
    simp only [Cells.insert]
    split
    · simp [Cells.lookup, Ne.symm h]
    · split
      · next hk => subst hk; simp [Cells.lookup, Ne.symm h]
      · simp [Cells.lookup, ih]

theorem Cells.lookup_erase_self (cells : CellList) (a : Nat) : Cells.lookup (Cells.erase cells a) a = none := by
  induction cells with
  | nil => rfl
  | cons c rest ih =>
    obtain ⟨k, w⟩ := c
    simp only [Cells.erase]
    split
    · exact ih
    · next hk => simp [Cells.lookup, hk, ih]

theorem Cells.lookup_erase_other (cells : CellList) {a b : Nat} (h : b ≠ a) :
    Cells.lookup (Cells.erase cells a) b = Cells.lookup cells b := by
  induction cells with
  | nil => rfl
  | cons c rest ih =>
    obtain ⟨k, w⟩ := c
    simp only [Cells.erase]
    split
    · next hk => subst hk; simp [Cells.lookup, Ne.symm h, ih]
    · simp [Cells.lookup, ih]

theorem Cells.risingFrom_insert (cells : CellList) (lo a : Nat) (v : Word) (hlo : lo ≤ a)
    (h : Cells.risingFrom lo cells = true) : Cells.risingFrom lo (Cells.insert cells a v) = true := by
  induction cells generalizing lo with
  | nil => simp [Cells.insert, Cells.risingFrom, hlo]
  | cons c rest ih =>
    obtain ⟨k, w⟩ := c
    simp only [Cells.risingFrom, Bool.and_eq_true, decide_eq_true_eq] at h
    simp only [Cells.insert]
    split
    · next hk => simp [Cells.risingFrom, hlo, h.2]; omega
    · split
      · next hk => subst hk; simp [Cells.risingFrom, hlo, h.2]
      · have := ih (k + 1) (by omega) h.2
        simp [Cells.risingFrom, h.1, this]

theorem Cells.risingFrom_mono (cells : CellList) {lo hi : Nat} (hle : lo ≤ hi)
    (h : Cells.risingFrom hi cells = true) : Cells.risingFrom lo cells = true := by
  cases cells with
  | nil => rfl
  | cons c rest =>
    simp only [Cells.risingFrom, Bool.and_eq_true, decide_eq_true_eq] at h ⊢
    exact ⟨by omega, h.2⟩

theorem Cells.risingFrom_erase (cells : CellList) (lo a : Nat)
    (h : Cells.risingFrom lo cells = true) : Cells.risingFrom lo (Cells.erase cells a) = true := by
  induction cells generalizing lo with
  | nil => rfl
  | cons c rest ih =>
    obtain ⟨k, w⟩ := c
    simp only [Cells.risingFrom, Bool.and_eq_true, decide_eq_true_eq] at h
    simp only [Cells.erase]
    split
    · exact Cells.risingFrom_mono _ (by omega) (ih (k + 1) h.2)
    · simp [Cells.risingFrom, h.1, ih (k + 1) h.2]

theorem Cells.all_insert (p : Nat × Word → Bool) (cells : CellList) (a : Nat) (v : Word) (hp : p (a, v) = true)
    (h : cells.all p = true) : (Cells.insert cells a v).all p = true := by
  induction cells with
  | nil => simp [Cells.insert, hp]
  | cons c rest ih =>
    obtain ⟨k, w⟩ := c
    simp only [List.all_cons, Bool.and_eq_true] at h
    simp only [Cells.insert]
    split
    · simp [hp, h]
    · split
      · simp only [List.all_cons, hp, h.2, Bool.and_self]
      · simp only [List.all_cons, h.1, ih h.2, Bool.and_self]

theorem Cells.all_erase (p : Nat × Word → Bool) (cells : CellList) (a : Nat)
    (h : cells.all p = true) : (Cells.erase cells a).all p = true := by
  induction cells with
  | nil => rfl
  | cons c rest ih =>
    obtain ⟨k, w⟩ := c
    simp only [List.all_cons, Bool.and_eq_true] at h
    simp only [Cells.erase]
    split
    · exact ih h.2
    · simp only [List.all_cons, h.1, ih h.2, Bool.and_self]

theorem Cells.wf_insert (cells : CellList) (a : Nat) (v : Word) (ha : a < Config.memWords)
    (h : Cells.wf cells = true) : Cells.wf (Cells.insert cells a v) = true := by
  simp only [Cells.wf, Bool.and_eq_true] at h ⊢
  exact ⟨Cells.risingFrom_insert _ _ _ _ (Nat.zero_le a) h.1, Cells.all_insert _ _ _ _ (by simpa using ha) h.2⟩

theorem Cells.wf_erase (cells : CellList) (a : Nat) (h : Cells.wf cells = true) :
    Cells.wf (Cells.erase cells a) = true := by
  simp only [Cells.wf, Bool.and_eq_true] at h ⊢
  exact ⟨Cells.risingFrom_erase _ _ _ h.1, Cells.all_erase _ _ _ h.2⟩

/-- A listed address of a well-formed map is an address of main memory. -/
theorem Cells.lookup_lt (cells : CellList) {a : Nat} {v : Word} (h : Cells.wf cells = true)
    (hl : Cells.lookup cells a = some v) : a < Config.memWords := by
  simp only [Cells.wf, Bool.and_eq_true] at h
  replace h := h.2
  induction cells with
  | nil => simp [Cells.lookup] at hl
  | cons c rest ih =>
    obtain ⟨k, w⟩ := c
    simp only [List.all_cons, Bool.and_eq_true, decide_eq_true_eq] at h
    simp only [Cells.lookup] at hl
    split at hl
    · next hk => subst hk; exact h.1
    · exact ih hl h.2

/-- Nothing is listed below the least address of a rising list. -/
theorem Cells.lookup_below (cells : CellList) {lo a : Nat} (h : Cells.risingFrom lo cells = true) (ha : a < lo) :
    Cells.lookup cells a = none := by
  induction cells generalizing lo with
  | nil => rfl
  | cons c rest ih =>
    obtain ⟨k, w⟩ := c
    simp only [Cells.risingFrom, Bool.and_eq_true, decide_eq_true_eq] at h
    have hk : ¬ k = a := by omega
    simp only [Cells.lookup, hk, if_false]
    exact ih h.2 (by omega)

/-! ## Memory -/

@[simp] theorem Memory.read_write_self (m : Memory) (a : Nat) (v : Word) : (m.write a v).read a = v := by
  unfold Memory.write
  split
  · next h => simp [Memory.read, Cells.lookup_erase_self, h]
  · simp [Memory.read, Cells.lookup_insert_self]

theorem Memory.read_write_other (m : Memory) {a b : Nat} (v : Word) (h : b ≠ a) :
    (m.write a v).read b = m.read b := by
  unfold Memory.write
  split
  · simp [Memory.read, Cells.lookup_erase_other _ h]
  · simp [Memory.read, Cells.lookup_insert_other _ _ h]

/-- A write in range keeps memory's canonical form. -/
theorem Memory.wf_write (m : Memory) (a : Nat) (v : Word) (ha : a < Config.memWords) (h : m.wf = true) :
    (m.write a v).wf = true := by
  simp only [Memory.wf, Bool.and_eq_true] at h
  unfold Memory.write
  split
  · simp only [Memory.wf, Bool.and_eq_true]
    exact ⟨Cells.wf_erase _ _ h.1, Cells.all_erase _ _ _ h.2⟩
  · next hv =>
    simp only [Memory.wf, Bool.and_eq_true]
    exact ⟨Cells.wf_insert _ _ _ ha h.1, Cells.all_insert _ _ _ _ (by simpa using hv) h.2⟩

/-! ## Caches -/

@[simp] theorem Cache.lookup_setEntry_self (c : Cache) (a : Nat) (v : Word) : (c.setEntry a v).lookup a = some v :=
  Cells.lookup_insert_self _ _ _

theorem Cache.lookup_setEntry_other (c : Cache) {a b : Nat} (v : Word) (h : b ≠ a) :
    (c.setEntry a v).lookup b = c.lookup b :=
  Cells.lookup_insert_other _ _ h

@[simp] theorem Cache.setEntry_hits (c : Cache) (a : Nat) (v : Word) : (c.setEntry a v).hits = c.hits := rfl
@[simp] theorem Cache.setEntry_misses (c : Cache) (a : Nat) (v : Word) : (c.setEntry a v).misses = c.misses := rfl

/-- The counters are no part of the map. -/
@[simp] theorem Cache.lookup_counters (c : Cache) (h m a : Nat) :
    ({ c with hits := h, misses := m } : Cache).lookup a = c.lookup a := rfl

theorem Cache.wf_setEntry (c : Cache) (a : Nat) (v : Word) (ha : a < Config.memWords) (h : c.wf = true) :
    (c.setEntry a v).wf = true :=
  Cells.wf_insert _ _ _ ha h

theorem Cache.lookup_lt (c : Cache) {a : Nat} {v : Word} (h : c.wf = true) (hl : c.lookup a = some v) :
    a < Config.memWords :=
  Cells.lookup_lt _ h hl

end Sys2Proof.Machine
end

