-- ==== Sys2Proof/Laws/Decode.lean ====
section
/-! SUPPORT. The opcode map read backwards, the fields of an assembled word, and what decoding a word answers. -/

namespace Sys2Proof

theorem Mnemonic.mem_all (m : Mnemonic) : m ∈ Mnemonic.all := by
  cases m <;> decide

/-- The byte of a mnemonic reads back as it, under every opcode map (R63). -/
theorem OpcodeMap.mnemonicOf_value (opc : OpcodeMap) (m : Mnemonic) : opc.mnemonicOf (opc.value m) = some m := by
  unfold OpcodeMap.mnemonicOf
  cases hf : Mnemonic.all.find? fun n => opc.value n == opc.value m with
  | none => exact absurd (by simp) (List.find?_eq_none.1 hf m (Mnemonic.mem_all m))
  | some n =>
    have hn : opc.value n = opc.value m := by simpa using List.find?_some hf
    rw [opc.injective _ _ hn]

theorem OpcodeMap.mnemonicOf_eq_some (opc : OpcodeMap) {b : Byte} {m : Mnemonic} :
    opc.mnemonicOf b = some m ↔ opc.value m = b := by
  constructor
  · intro h
    simpa using List.find?_some h
  · rintro rfl
    exact opc.mnemonicOf_value m

theorem OpcodeMap.mnemonicOf_eq_none (opc : OpcodeMap) {b : Byte} :
    opc.mnemonicOf b = none ↔ ∀ m, opc.value m ≠ b := by
  constructor
  · rintro h m rfl
    simp [opc.mnemonicOf_value] at h
  · intro h
    cases hm : opc.mnemonicOf b with
    | none => rfl
    | some m => exact absurd (opc.mnemonicOf_eq_some.1 hm) (h m)

theorem decode_eq_known (opc : OpcodeMap) {w : Word} {i : Instr} :
    decode opc w = .known i ↔ ∃ m, opc.value m = opcodeOf w ∧ instrOf m w = i := by
  unfold decode
  cases h : opc.mnemonicOf (opcodeOf w) with
  | none => simpa using fun m hm => absurd hm (opc.mnemonicOf_eq_none.1 h m)
  | some m =>
    have hm := opc.mnemonicOf_eq_some.1 h
    simp only [Decoded.known.injEq]
    exact ⟨fun e => ⟨m, hm, e⟩, fun ⟨n, hn, e⟩ => opc.injective _ _ (hn.trans hm.symm) ▸ e⟩

theorem decode_eq_unknown (opc : OpcodeMap) {w : Word} :
    decode opc w = .unknown ↔ ∀ m, opc.value m ≠ opcodeOf w := by
  rw [← opc.mnemonicOf_eq_none]
  unfold decode
  cases opc.mnemonicOf (opcodeOf w) <;> simp

/-- The instruction read under a mnemonic has it. -/
@[simp] theorem instrOf_mnemonic (m : Mnemonic) (w : Word) : (instrOf m w).mnemonic = m := by
  cases m <;> rfl

/-! ## The fields of an assembled word -/

@[simp] theorem opcodeOf_encodeR (op ra rb rc : Byte) : opcodeOf (encodeR op ra rb rc) = op := by
  ext i hi
  simp only [opcodeOf, encodeR, BitVec.getElem_extractLsb', BitVec.getLsbD_append]
  rw [if_neg (by omega), if_neg (by omega), if_neg (by omega), ← BitVec.getLsbD_eq_getElem hi]
  congr 1; omega

@[simp] theorem raOf_encodeR (op ra rb rc : Byte) : raOf (encodeR op ra rb rc) = ra := by
  ext i hi
  simp only [raOf, encodeR, BitVec.getElem_extractLsb', BitVec.getLsbD_append]
  rw [if_neg (by omega), if_neg (by omega), if_pos (by omega), ← BitVec.getLsbD_eq_getElem hi]
  congr 1; omega

@[simp] theorem rbOf_encodeR (op ra rb rc : Byte) : rbOf (encodeR op ra rb rc) = rb := by
  ext i hi
  simp only [rbOf, encodeR, BitVec.getElem_extractLsb', BitVec.getLsbD_append]
  rw [if_neg (by omega), if_pos (by omega), ← BitVec.getLsbD_eq_getElem hi]
  congr 1; omega

@[simp] theorem rcOf_encodeR (op ra rb rc : Byte) : rcOf (encodeR op ra rb rc) = rc := by
  ext i hi
  simp only [rcOf, encodeR, BitVec.getElem_extractLsb', BitVec.getLsbD_append]
  rw [if_pos (by omega), ← BitVec.getLsbD_eq_getElem hi]
  congr 1; omega

@[simp] theorem opcodeOf_encodeI (op : Byte) (imm16 : BitVec 16) (d : Byte) : opcodeOf (encodeI op imm16 d) = op := by
  ext i hi
  simp only [opcodeOf, encodeI, BitVec.getElem_extractLsb', BitVec.getLsbD_append]
  rw [if_neg (by omega), if_neg (by omega), ← BitVec.getLsbD_eq_getElem hi]
  congr 1; omega

@[simp] theorem immediate16Of_encodeI (op : Byte) (imm16 : BitVec 16) (d : Byte) :
    immediate16Of (encodeI op imm16 d) = imm16 := by
  ext i hi
  simp only [immediate16Of, encodeI, BitVec.getElem_extractLsb', BitVec.getLsbD_append]
  rw [if_neg (by omega), if_pos (by omega), ← BitVec.getLsbD_eq_getElem hi]
  congr 1; omega

@[simp] theorem rcOf_encodeI (op : Byte) (imm16 : BitVec 16) (d : Byte) : rcOf (encodeI op imm16 d) = d := by
  ext i hi
  simp only [rcOf, encodeI, BitVec.getElem_extractLsb', BitVec.getLsbD_append]
  rw [if_pos (by omega), ← BitVec.getLsbD_eq_getElem hi]
  congr 1; omega

@[simp] theorem opcodeOf_encodeJ (op : Byte) (addr24 : BitVec 24) : opcodeOf (encodeJ op addr24) = op := by
  ext i hi
  simp only [opcodeOf, encodeJ, BitVec.getElem_extractLsb', BitVec.getLsbD_append]
  rw [if_neg (by omega), ← BitVec.getLsbD_eq_getElem hi]
  congr 1; omega

@[simp] theorem address24Of_encodeJ (op : Byte) (addr24 : BitVec 24) : address24Of (encodeJ op addr24) = addr24 := by
  ext i hi
  simp only [address24Of, encodeJ, BitVec.getElem_extractLsb', BitVec.getLsbD_append]
  rw [if_pos (by omega), ← BitVec.getLsbD_eq_getElem hi]
  congr 1; omega

/-- A word is its four byte views, joined (R57, R61). -/
theorem encodeR_views (w : Word) : encodeR (opcodeOf w) (raOf w) (rbOf w) (rcOf w) = w := by
  refine BitVec.eq_of_getLsbD_eq fun i hi => ?_
  simp only [opcodeOf, raOf, rbOf, rcOf, encodeR, BitVec.getLsbD_append, BitVec.getLsbD_extractLsb']
  split <;> [skip; split <;> [skip; split]] <;> rw [decide_eq_true (by omega), Bool.true_and] <;> congr 1 <;> omega

/-- A word is its opcode, immediate and d views, joined (R58, R61). -/
theorem encodeI_views (w : Word) : encodeI (opcodeOf w) (immediate16Of w) (rcOf w) = w := by
  refine BitVec.eq_of_getLsbD_eq fun i hi => ?_
  simp only [opcodeOf, immediate16Of, rcOf, encodeI, BitVec.getLsbD_append, BitVec.getLsbD_extractLsb']
  split <;> [skip; split] <;> rw [decide_eq_true (by omega), Bool.true_and] <;> congr 1 <;> omega

/-- A word is its opcode and address views, joined (R59, R61). -/
theorem encodeJ_views (w : Word) : encodeJ (opcodeOf w) (address24Of w) = w := by
  refine BitVec.eq_of_getLsbD_eq fun i hi => ?_
  simp only [opcodeOf, address24Of, encodeJ, BitVec.getLsbD_append, BitVec.getLsbD_extractLsb']
  split <;> rw [decide_eq_true (by omega), Bool.true_and] <;> congr 1 <;> omega

/-! ## The operand list -/

/-- An operand list is placed exactly where it has one operand for each field and each fits its field. -/
theorem placeOperands_isSome_iff (fields : List OperandField) (operands : List Nat) :
    (placeOperands fields operands).isSome = true ↔ List.Forall₂ (fun f v => v < 2 ^ f.width) fields operands := by
  induction fields generalizing operands with
  | nil => cases operands <;> simp [placeOperands]
  | cons f fields ih =>
    cases operands with
    | nil => simp [placeOperands]
    | cons v operands => by_cases h : v < 2 ^ f.width <;> simp [placeOperands, h, ih]

theorem encodeOperands_eq_some {opc : OpcodeMap} {m : Mnemonic} {operands : List Nat} {w : Word} :
    encodeOperands opc m operands = some w ↔
      ∃ bits, placeOperands m.operandFields operands = some bits ∧ encodeJ (opc.value m) (BitVec.ofNat 24 bits) = w := by
  simp [encodeOperands]

/-- Under its mnemonic's opcode, a word with the operands placed decodes to that mnemonic's instruction. -/
theorem decode_encodeOperands {opc : OpcodeMap} {m : Mnemonic} {operands : List Nat} {w : Word}
    (h : encodeOperands opc m operands = some w) : decode opc w = .known (instrOf m w) := by
  obtain ⟨bits, -, rfl⟩ := encodeOperands_eq_some.1 h
  exact (decode_eq_known opc).2 ⟨m, by simp, rfl⟩

/-- A field's view as a number: the word shifted down to the field's position and cut to its width (R61). -/
theorem OperandField.read_eq (f : OperandField) (w : Word) : f.read w = w.toNat / 2 ^ f.position % 2 ^ f.width := by
  cases f <;>
    simp [OperandField.read, OperandField.position, OperandField.width, raOf, rbOf, rcOf, immediate16Of, address24Of,
      BitVec.extractLsb'_toNat, Nat.shiftRight_eq_div_pow]

end Sys2Proof
end

