-- ==== Sys2Proof/Laws/Ops.lean ====
section
/-! SUPPORT. What each shared operation over memory and the caches can do, said once. -/

namespace Sys2Proof.Machine

theorem inMemory_iff (a : Nat) : inMemory a = true ↔ a < 65536 :=
  decide_eq_true_iff

theorem memLoad_ok_iff {kind : AccessKind} {m : Memory} {a : Nat} {v : Word} :
    memLoad kind m a = .ok v ↔ a < 65536 ∧ m.read a = v := by
  unfold memLoad
  split
  · next h => simp [(inMemory_iff a).1 h]
  · next h => simp [mt (inMemory_iff a).2 h]

theorem memLoad_error_iff {kind : AccessKind} {m : Memory} {a : Nat} {f : Fault} :
    memLoad kind m a = .error f ↔ 65536 ≤ a ∧ f = .addressing kind a := by
  unfold memLoad
  split
  · next h => have := (inMemory_iff a).1 h; simp [Nat.not_le.2 this]
  · next h =>
    have := mt (inMemory_iff a).2 h
    simp [Nat.le_of_not_lt this, eq_comm]

theorem memStore_ok_iff {kind : AccessKind} {m m' : Memory} {a : Nat} {v : Word} :
    memStore kind m a v = .ok m' ↔ a < 65536 ∧ m' = m.write a v := by
  unfold memStore
  split
  · next h => simp [(inMemory_iff a).1 h, eq_comm]
  · next h => simp [mt (inMemory_iff a).2 h]

theorem memStore_error_iff {kind : AccessKind} {m : Memory} {a : Nat} {v : Word} {f : Fault} :
    memStore kind m a v = .error f ↔ 65536 ≤ a ∧ f = .addressing kind a := by
  unfold memStore
  split
  · next h => have := (inMemory_iff a).1 h; simp [Nat.not_le.2 this]
  · next h =>
    have := mt (inMemory_iff a).2 h
    simp [Nat.le_of_not_lt this, eq_comm]

/-- A successful cache load is a hit, or a miss in range that filled (R40). -/
theorem cacheLoad_ok_cases {kind : AccessKind} {c c' : Cache} {m : Memory} {a : Nat} {v : Word}
    (h : cacheLoad kind c m a = .ok (v, c')) :
    (c.lookup a = some v ∧ c' = { c with hits := c.hits + 1 }) ∨
    (c.lookup a = none ∧ a < 65536 ∧ v = m.read a ∧ c' = { c.setEntry a v with misses := c.misses + 1 }) := by
  unfold cacheLoad at h
  split at h
  · next w hw =>
    obtain ⟨rfl, rfl⟩ : w = v ∧ _ = c' := by simpa using h
    exact .inl ⟨hw, rfl⟩
  · next hn =>
    split at h
    · next w hw =>
      obtain ⟨hlt, hr⟩ := memLoad_ok_iff.1 hw
      obtain ⟨rfl, rfl⟩ : w = v ∧ _ = c' := by simpa using h
      exact .inr ⟨hn, hlt, hr.symm, rfl⟩
    · cases h

theorem cacheLoad_hit {kind : AccessKind} {c : Cache} {m : Memory} {a : Nat} {v : Word} (h : c.lookup a = some v) :
    cacheLoad kind c m a = .ok (v, { c with hits := c.hits + 1 }) := by
  simp [cacheLoad, h]

theorem cacheLoad_miss {kind : AccessKind} {c : Cache} {m : Memory} {a : Nat} (h : c.lookup a = none)
    (ha : a < 65536) :
    cacheLoad kind c m a = .ok (m.read a, { c.setEntry a (m.read a) with misses := c.misses + 1 }) := by
  simp [cacheLoad, h, memLoad_ok_iff.2 ⟨ha, rfl⟩]

/-- A cache load faults exactly on an absent address outside memory (R40). -/
theorem cacheLoad_error_iff {kind : AccessKind} {c : Cache} {m : Memory} {a : Nat} {f : Fault} :
    cacheLoad kind c m a = .error f ↔ c.lookup a = none ∧ 65536 ≤ a ∧ f = .addressing kind a := by
  unfold cacheLoad
  split
  · next w hw => simp [hw]
  · next hn =>
    split
    · next w hw =>
      have := (memLoad_ok_iff.1 hw).1
      simp [Nat.not_le.2 this]
    · next g hg =>
      obtain ⟨hle, rfl⟩ := memLoad_error_iff.1 hg
      simp [hn, hle, eq_comm]

/-- With a well-formed map a cache load faults exactly outside memory. -/
theorem cacheLoad_error_of_wf {kind : AccessKind} {c : Cache} {m : Memory} {a : Nat} (hc : c.wf = true)
    (ha : 65536 ≤ a) : cacheLoad kind c m a = .error (.addressing kind a) := by
  refine cacheLoad_error_iff.2 ⟨?_, ha, rfl⟩
  cases h : c.lookup a with
  | none => rfl
  | some v =>
    have := Cache.lookup_lt c hc h
    simp only [Config.memWords] at this
    omega

/-- A cache load keeps the form of the map. -/
theorem cacheLoad_keeps_wf {kind : AccessKind} {c c' : Cache} {m : Memory} {a : Nat} {v : Word}
    (h : cacheLoad kind c m a = .ok (v, c')) (hc : c.wf = true) : c'.wf = true := by
  obtain ⟨-, rfl⟩ | ⟨-, ha, -, rfl⟩ := cacheLoad_ok_cases h
  · exact hc
  · exact Cache.wf_setEntry c a v ha hc

/-- A cache load loses no entry and changes none. -/
theorem cacheLoad_keeps_entries {kind : AccessKind} {c c' : Cache} {m : Memory} {a b : Nat} {v w : Word}
    (h : cacheLoad kind c m a = .ok (v, c')) (hb : c.lookup b = some w) : c'.lookup b = some w := by
  obtain ⟨-, rfl⟩ | ⟨hn, -, -, rfl⟩ := cacheLoad_ok_cases h
  · exact hb
  · have hne : b ≠ a := by rintro rfl; simp [hn] at hb
    exact (Cache.lookup_setEntry_other c v hne).trans hb

theorem cacheStore_ok_iff {c c' : Cache} {m m' : Memory} {a : Nat} {v : Word} :
    cacheStore c m a v = .ok (c', m') ↔ a < 65536 ∧ c' = c.setEntry a v ∧ m' = m.write a v := by
  unfold cacheStore
  split
  · next m₁ h₁ =>
    obtain ⟨hlt, rfl⟩ := memStore_ok_iff.1 h₁
    simp [hlt, eq_comm]
  · next f h₁ =>
    have := (memStore_error_iff.1 h₁).1
    simp [Nat.not_lt.2 this]

theorem cacheStore_error_iff {c : Cache} {m : Memory} {a : Nat} {v : Word} {f : Fault} :
    cacheStore c m a v = .error f ↔ 65536 ≤ a ∧ f = .addressing .store a := by
  unfold cacheStore
  split
  · next m₁ h₁ =>
    have := (memStore_ok_iff.1 h₁).1
    simp [Nat.not_le.2 this]
  · next g h₁ =>
    obtain ⟨hle, rfl⟩ := memStore_error_iff.1 h₁
    simp [hle, eq_comm]

end Sys2Proof.Machine
end

