-- ==== Sys2Proof/Laws/State.lean ====
section
/-! SUPPORT. One lemma per field per named update of the state. -/

namespace Sys2Proof.Machine

variable (s : State) (i k : Fin 32) (v : Word)

@[simp] theorem State.reg_setReg_self : (s.setReg i v).reg i = v := by
  simp [State.reg, State.setReg]

theorem State.reg_setReg_other (h : k ≠ i) : (s.setReg i v).reg k = s.reg k := by
  have hv : (i : Nat) ≠ (k : Nat) := fun e => h (Fin.ext e.symm)
  simp [State.reg, State.setReg, Vector.getElem_set_ne, hv]

@[simp] theorem State.setReg_pc : (s.setReg i v).pc = s.pc := rfl
@[simp] theorem State.setReg_ir : (s.setReg i v).ir = s.ir := rfl
@[simp] theorem State.setReg_flags : (s.setReg i v).flags = s.flags := rfl
@[simp] theorem State.setReg_mem : (s.setReg i v).mem = s.mem := rfl
@[simp] theorem State.setReg_icache : (s.setReg i v).icache = s.icache := rfl
@[simp] theorem State.setReg_dcache : (s.setReg i v).dcache = s.dcache := rfl
@[simp] theorem State.setReg_engine : (s.setReg i v).engine = s.engine := rfl
@[simp] theorem State.setReg_cycles : (s.setReg i v).cycles = s.cycles := rfl

/-- The write-back's register: written, or register 0 kept (R81). -/
theorem State.reg_writeBack_self : (s.writeBack i v).reg i = if i = 0 then s.reg 0 else v := by
  unfold State.writeBack
  split
  · next h => rw [h]
  · exact State.reg_setReg_self s i v

theorem State.reg_writeBack_other (h : k ≠ i) : (s.writeBack i v).reg k = s.reg k := by
  unfold State.writeBack
  split
  · rfl
  · exact State.reg_setReg_other s i k v h

/-- No write-back writes register 0 (R81). -/
@[simp] theorem State.reg_zero_writeBack : (s.writeBack i v).reg 0 = s.reg 0 := by
  by_cases h : i = 0
  · simp [State.writeBack, h]
  · exact State.reg_writeBack_other s i 0 v (Ne.symm h)

@[simp] theorem State.writeBack_pc : (s.writeBack i v).pc = s.pc := by unfold State.writeBack; split <;> rfl
@[simp] theorem State.writeBack_ir : (s.writeBack i v).ir = s.ir := by unfold State.writeBack; split <;> rfl
@[simp] theorem State.writeBack_flags : (s.writeBack i v).flags = s.flags := by unfold State.writeBack; split <;> rfl
@[simp] theorem State.writeBack_mem : (s.writeBack i v).mem = s.mem := by unfold State.writeBack; split <;> rfl
@[simp] theorem State.writeBack_icache : (s.writeBack i v).icache = s.icache := by unfold State.writeBack; split <;> rfl
@[simp] theorem State.writeBack_dcache : (s.writeBack i v).dcache = s.dcache := by unfold State.writeBack; split <;> rfl
@[simp] theorem State.writeBack_engine : (s.writeBack i v).engine = s.engine := by unfold State.writeBack; split <;> rfl
@[simp] theorem State.writeBack_cycles : (s.writeBack i v).cycles = s.cycles := by unfold State.writeBack; split <;> rfl

@[simp] theorem State.jumpTo_pc : (s.jumpTo v).pc = v := rfl
@[simp] theorem State.jumpTo_reg : (s.jumpTo v).reg i = s.reg i := rfl
@[simp] theorem State.jumpTo_ir : (s.jumpTo v).ir = s.ir := rfl
@[simp] theorem State.jumpTo_flags : (s.jumpTo v).flags = s.flags := rfl
@[simp] theorem State.jumpTo_mem : (s.jumpTo v).mem = s.mem := rfl
@[simp] theorem State.jumpTo_icache : (s.jumpTo v).icache = s.icache := rfl
@[simp] theorem State.jumpTo_dcache : (s.jumpTo v).dcache = s.dcache := rfl
@[simp] theorem State.jumpTo_engine : (s.jumpTo v).engine = s.engine := rfl
@[simp] theorem State.jumpTo_cycles : (s.jumpTo v).cycles = s.cycles := rfl

@[simp] theorem State.completeCycle_reg : s.completeCycle.reg i = s.reg i := rfl
@[simp] theorem State.completeCycle_pc : s.completeCycle.pc = s.pc := rfl
@[simp] theorem State.completeCycle_ir : s.completeCycle.ir = s.ir := rfl
@[simp] theorem State.completeCycle_flags : s.completeCycle.flags = s.flags := rfl
@[simp] theorem State.completeCycle_mem : s.completeCycle.mem = s.mem := rfl
@[simp] theorem State.completeCycle_icache : s.completeCycle.icache = s.icache := rfl
@[simp] theorem State.completeCycle_dcache : s.completeCycle.dcache = s.dcache := rfl
@[simp] theorem State.completeCycle_engine : s.completeCycle.engine = nextEngine s.engine := rfl
@[simp] theorem State.completeCycle_cycles : s.completeCycle.cycles = s.cycles + 1 := rfl

/-- After a cycle the engine is at FETCH or HALTED (R28). -/
theorem nextEngine_cases (e : EngineState) : nextEngine e = .fetch ∨ nextEngine e = .halted := by
  cases e <;> simp [nextEngine]

end Sys2Proof.Machine
end

