-- ==== Sys2Proof/Laws/Exec.lean ====
section
/-! SUPPORT. What running one instruction can do, said once: the register check of each operand form, and one inversion
lemma over all the instructions (`exec_next_effect`). -/

namespace Sys2Proof.Machine

/-! ## The register-index check -/

theorem withRegister_valid {field : RegField} {value : Byte} {k : Fin 32 → Result} {i : Fin 32}
    (h : value.toNat = i) : withRegister field value k = k i := by
  have hlt : value.toNat < 32 := h ▸ i.isLt
  have hi : (⟨value.toNat, hlt⟩ : Fin 32) = i := Fin.ext h
  simp [withRegister, hlt, hi]

theorem withRegister_invalid {field : RegField} {value : Byte} {k : Fin 32 → Result} (h : 32 ≤ value.toNat) :
    withRegister field value k = .fault (.registerIndex field value) := by
  simp [withRegister, Nat.not_lt.2 h]

/-- A check either raises its fault or hands on the register the field names. -/
theorem withRegister_cases (field : RegField) (value : Byte) (k : Fin 32 → Result) :
    (32 ≤ value.toNat ∧ withRegister field value k = .fault (.registerIndex field value)) ∨
    ∃ i : Fin 32, value.toNat = i ∧ withRegister field value k = k i := by
  by_cases h : value.toNat < 32
  · exact .inr ⟨⟨value.toNat, h⟩, rfl, withRegister_valid rfl⟩
  · exact .inl ⟨Nat.le_of_not_lt h, withRegister_invalid (Nat.le_of_not_lt h)⟩

theorem withRegister_next {field : RegField} {value : Byte} {k : Fin 32 → Result} {t : State}
    (h : withRegister field value k = .next t) : ∃ i : Fin 32, value.toNat = i ∧ k i = .next t := by
  obtain ⟨-, hf⟩ | ⟨i, hi, he⟩ := withRegister_cases field value k
  · cases hf.symm.trans h
  · exact ⟨i, hi, he.symm.trans h⟩

theorem withThreeRegisters_valid {ra rb rc : Byte} {k : Fin 32 → Fin 32 → Fin 32 → Result} {a b c : Fin 32}
    (ha : ra.toNat = a) (hb : rb.toNat = b) (hc : rc.toNat = c) : withThreeRegisters ra rb rc k = k a b c := by
  unfold withThreeRegisters
  rw [withRegister_valid ha, withRegister_valid hb, withRegister_valid hc]

theorem withThreeRegisters_next {ra rb rc : Byte} {k : Fin 32 → Fin 32 → Fin 32 → Result} {t : State}
    (h : withThreeRegisters ra rb rc k = .next t) :
    ∃ a b c : Fin 32, ra.toNat = a ∧ rb.toNat = b ∧ rc.toNat = c ∧ k a b c = .next t := by
  obtain ⟨a, ha, h⟩ := withRegister_next h
  obtain ⟨b, hb, h⟩ := withRegister_next h
  obtain ⟨c, hc, h⟩ := withRegister_next h
  exact ⟨a, b, c, ha, hb, hc, h⟩

theorem withTwoRegisters_valid {ra rb : Byte} {k : Fin 32 → Fin 32 → Result} {a b : Fin 32}
    (ha : ra.toNat = a) (hb : rb.toNat = b) : withTwoRegisters ra rb k = k a b := by
  unfold withTwoRegisters
  rw [withRegister_valid ha, withRegister_valid hb]

theorem withTwoRegisters_next {ra rb : Byte} {k : Fin 32 → Fin 32 → Result} {t : State}
    (h : withTwoRegisters ra rb k = .next t) :
    ∃ a b : Fin 32, ra.toNat = a ∧ rb.toNat = b ∧ k a b = .next t := by
  obtain ⟨a, ha, h⟩ := withRegister_next h
  obtain ⟨b, hb, h⟩ := withRegister_next h
  exact ⟨a, b, ha, hb, h⟩

/-! ## The templates -/

/-- Every instruction of the ALU family runs R88's template. -/
theorem exec_alu {i : Instr} {op : AluOp} {ra rb rc : Byte} (h : aluOperation i = some (op, ra, rb, rc)) (s : State) :
    exec i s = aluInstr op ra rb rc s := by
  cases i <;> simp only [aluOperation, Option.some.injEq, Prod.mk.injEq, reduceCtorEq] at h <;>
    obtain ⟨rfl, rfl, rfl, rfl⟩ := h <;> rfl

theorem aluInstr_valid {op : AluOp} {ra rb rc : Byte} {a b c : Fin 32} (s : State)
    (ha : ra.toNat = a) (hb : rb.toNat = b) (hc : rc.toNat = c) :
    aluInstr op ra rb rc s = .next (aluEffect op a b c s) :=
  withThreeRegisters_valid ha hb hc

theorem loadEffect_next {a c : Fin 32} {s t : State} (h : loadEffect a c s = .next t) :
    ∃ v dcache, cacheLoad .load s.dcache s.mem (effectiveAddress s a) = .ok (v, dcache) ∧
      t = { s with dcache := dcache }.writeBack c v := by
  unfold loadEffect at h
  split at h
  · next v dcache hl => exact ⟨v, dcache, hl, by simpa using h.symm⟩
  · cases h

theorem storeEffect_next {a c : Fin 32} {s t : State} (h : storeEffect a c s = .next t) :
    effectiveAddress s c < 65536 ∧
      t = { s with dcache := s.dcache.setEntry (effectiveAddress s c) (s.reg a),
                   mem := s.mem.write (effectiveAddress s c) (s.reg a) } := by
  unfold storeEffect at h
  split at h
  · next dcache mem hs =>
    obtain ⟨hlt, rfl, rfl⟩ := cacheStore_ok_iff.1 hs
    exact ⟨hlt, by simpa using h.symm⟩
  · cases h

/-! ## Each meaning, on fields that name registers -/

section
variable {ra rb rc : Byte} {a b c : Fin 32} (s : State)

theorem exec_lclMsb (imm16 : BitVec 16) (hc : rc.toNat = c) :
    exec (.lclMsb imm16 rc) s = .next (s.writeBack c (mergeHigh (s.reg c) imm16)) := by
  simp only [exec, execLclMsb, loadConstant]; exact withRegister_valid hc

theorem exec_lclLsb (imm16 : BitVec 16) (hc : rc.toNat = c) :
    exec (.lclLsb imm16 rc) s = .next (s.writeBack c (mergeLow (s.reg c) imm16)) := by
  simp only [exec, execLclLsb, loadConstant]; exact withRegister_valid hc

theorem exec_load (ha : ra.toNat = a) (hb : rb.toNat = b) (hc : rc.toNat = c) :
    exec (.load ra rb rc) s = loadEffect a c s := by
  simp only [exec, execLoad]; exact withThreeRegisters_valid ha hb hc

theorem exec_store (ha : ra.toNat = a) (hb : rb.toNat = b) (hc : rc.toNat = c) :
    exec (.store ra rb rc) s = storeEffect a c s := by
  simp only [exec, execStore]; exact withThreeRegisters_valid ha hb hc

theorem exec_jr (ha : ra.toNat = a) (hb : rb.toNat = b) (hc : rc.toNat = c) :
    exec (.jr ra rb rc) s = .next (s.jumpTo (s.reg c)) := by
  simp only [exec, execJr]; exact withThreeRegisters_valid ha hb hc

theorem exec_beq (ha : ra.toNat = a) (hb : rb.toNat = b) :
    exec (.beq ra rb rc) s = .next (branchEffect (decide (s.reg a = s.reg b)) rc s) := by
  simp only [exec, execBeq, branchInstr]; exact withTwoRegisters_valid ha hb

theorem exec_bne (ha : ra.toNat = a) (hb : rb.toNat = b) :
    exec (.bne ra rb rc) s = .next (branchEffect (decide (s.reg a ≠ s.reg b)) rc s) := by
  simp only [exec, execBne, branchInstr]; exact withTwoRegisters_valid ha hb

theorem exec_bgt (ha : ra.toNat = a) (hb : rb.toNat = b) :
    exec (.bgt ra rb rc) s = .next (branchEffect (branchGreater branchSigned (s.reg a) (s.reg b)) rc s) := by
  simp only [exec, execBgt, branchInstr]; exact withTwoRegisters_valid ha hb

theorem exec_blt (ha : ra.toNat = a) (hb : rb.toNat = b) :
    exec (.blt ra rb rc) s = .next (branchEffect (branchLess branchSigned (s.reg a) (s.reg b)) rc s) := by
  simp only [exec, execBlt, branchInstr]; exact withTwoRegisters_valid ha hb

end

/-! ## The inversion lemma -/

/-- What the next state of one instruction is. -/
inductive ExecEffect (s : State) : Instr → State → Prop where
  | alu {i : Instr} {op : AluOp} {ra rb rc : Byte} (a b c : Fin 32) (hi : aluOperation i = some (op, ra, rb, rc))
      (ha : ra.toNat = a) (hb : rb.toNat = b) (hc : rc.toNat = c) : ExecEffect s i (aluEffect op a b c s)
  | lclMsb {imm16 : BitVec 16} {d : Byte} (i : Fin 32) (hd : d.toNat = i) :
      ExecEffect s (.lclMsb imm16 d) (s.writeBack i (mergeHigh (s.reg i) imm16))
  | lclLsb {imm16 : BitVec 16} {d : Byte} (i : Fin 32) (hd : d.toNat = i) :
      ExecEffect s (.lclLsb imm16 d) (s.writeBack i (mergeLow (s.reg i) imm16))
  | load {ra rb rc : Byte} {v : Word} {dcache : Cache} (a b c : Fin 32)
      (ha : ra.toNat = a) (hb : rb.toNat = b) (hc : rc.toNat = c)
      (hl : cacheLoad .load s.dcache s.mem (effectiveAddress s a) = .ok (v, dcache)) :
      ExecEffect s (.load ra rb rc) ({ s with dcache := dcache }.writeBack c v)
  | store {ra rb rc : Byte} (a b c : Fin 32) (ha : ra.toNat = a) (hb : rb.toNat = b) (hc : rc.toNat = c)
      (hlt : effectiveAddress s c < 65536) :
      ExecEffect s (.store ra rb rc)
        { s with dcache := s.dcache.setEntry (effectiveAddress s c) (s.reg a),
                 mem := s.mem.write (effectiveAddress s c) (s.reg a) }
  | jal {addr24 : BitVec 24} : ExecEffect s (.jal addr24) ((s.setReg Config.linkReg s.pc).jumpTo (jumpTarget addr24))
  | j {addr24 : BitVec 24} : ExecEffect s (.j addr24) (s.jumpTo (jumpTarget addr24))
  | jr {ra rb rc : Byte} (c : Fin 32) (hc : rc.toNat = c) : ExecEffect s (.jr ra rb rc) (s.jumpTo (s.reg c))
  | beq {ra rb target : Byte} (taken : Bool) : ExecEffect s (.beq ra rb target) (branchEffect taken target s)
  | bne {ra rb target : Byte} (taken : Bool) : ExecEffect s (.bne ra rb target) (branchEffect taken target s)
  | bgt {ra rb target : Byte} (taken : Bool) : ExecEffect s (.bgt ra rb target) (branchEffect taken target s)
  | blt {ra rb target : Byte} (taken : Bool) : ExecEffect s (.blt ra rb target) (branchEffect taken target s)
  | halt : ExecEffect s .halt { s with engine := .halted }

/-- The inversion lemma: a next state of `exec` is one of these effects. -/
theorem exec_next_effect {i : Instr} {s t : State} (h : exec i s = .next t) : ExecEffect s i t := by
  have alu {op ra rb rc} (hi : aluOperation i = some (op, ra, rb, rc)) : ExecEffect s i t := by
    rw [exec_alu hi, aluInstr] at h
    obtain ⟨a, b, c, ha, hb, hc, h⟩ := withThreeRegisters_next h
    cases h
    exact .alu a b c hi ha hb hc
  cases i with
  | lclMsb imm16 d => simp only [exec, execLclMsb, loadConstant] at h; obtain ⟨k, hk, h⟩ := withRegister_next h; cases h; exact .lclMsb k hk
  | lclLsb imm16 d => simp only [exec, execLclLsb, loadConstant] at h; obtain ⟨k, hk, h⟩ := withRegister_next h; cases h; exact .lclLsb k hk
  | load ra rb rc =>
    simp only [exec, execLoad] at h
    obtain ⟨a, b, c, ha, hb, hc, h⟩ := withThreeRegisters_next h
    obtain ⟨v, dcache, hl, rfl⟩ := loadEffect_next h
    exact .load a b c ha hb hc hl
  | store ra rb rc =>
    simp only [exec, execStore] at h
    obtain ⟨a, b, c, ha, hb, hc, h⟩ := withThreeRegisters_next h
    obtain ⟨hlt, rfl⟩ := storeEffect_next h
    exact .store a b c ha hb hc hlt
  | jal addr24 => cases h; exact .jal
  | j addr24 => cases h; exact .j
  | jr ra rb rc =>
    simp only [exec, execJr] at h
    obtain ⟨a, b, c, -, -, hc, h⟩ := withThreeRegisters_next h; cases h; exact .jr c hc
  | beq ra rb target =>
    simp only [exec, execBeq, branchInstr] at h
    obtain ⟨a, b, -, -, h⟩ := withTwoRegisters_next h; cases h; exact .beq _
  | bne ra rb target =>
    simp only [exec, execBne, branchInstr] at h
    obtain ⟨a, b, -, -, h⟩ := withTwoRegisters_next h; cases h; exact .bne _
  | bgt ra rb target =>
    simp only [exec, execBgt, branchInstr] at h
    obtain ⟨a, b, -, -, h⟩ := withTwoRegisters_next h; cases h; exact .bgt _
  | blt ra rb target =>
    simp only [exec, execBlt, branchInstr] at h
    obtain ⟨a, b, -, -, h⟩ := withTwoRegisters_next h; cases h; exact .blt _
  | halt => cases h; exact .halt
  | _ => exact alu rfl

/-! ## The ALU's effect, field by field -/

variable (op : AluOp) (a b c : Fin 32) (s : State)

@[simp] theorem aluEffect_flags : (aluEffect op a b c s).flags = aluFlags op (s.reg a) (s.reg b) := by
  simp [aluEffect]
@[simp] theorem aluEffect_pc : (aluEffect op a b c s).pc = s.pc := by simp [aluEffect]
@[simp] theorem aluEffect_ir : (aluEffect op a b c s).ir = s.ir := by simp [aluEffect]
@[simp] theorem aluEffect_mem : (aluEffect op a b c s).mem = s.mem := by simp [aluEffect]
@[simp] theorem aluEffect_icache : (aluEffect op a b c s).icache = s.icache := by simp [aluEffect]
@[simp] theorem aluEffect_dcache : (aluEffect op a b c s).dcache = s.dcache := by simp [aluEffect]
@[simp] theorem aluEffect_engine : (aluEffect op a b c s).engine = s.engine := by simp [aluEffect]
@[simp] theorem aluEffect_cycles : (aluEffect op a b c s).cycles = s.cycles := by simp [aluEffect]

theorem aluEffect_reg_self :
    (aluEffect op a b c s).reg c = if c = 0 then s.reg 0 else aluResult op (s.reg a) (s.reg b) :=
  State.reg_writeBack_self _ _ _

theorem aluEffect_reg_other (k : Fin 32) (h : k ≠ c) : (aluEffect op a b c s).reg k = s.reg k :=
  State.reg_writeBack_other _ _ _ _ h

/-! ## The branches' effect, field by field -/

variable (taken : Bool) (target : Byte)

theorem branchEffect_pc : (branchEffect taken target s).pc = if taken then branchTarget target else s.pc := by
  cases taken <;> rfl
@[simp] theorem branchEffect_reg : (branchEffect taken target s).reg c = s.reg c := by cases taken <;> rfl
@[simp] theorem branchEffect_ir : (branchEffect taken target s).ir = s.ir := by cases taken <;> rfl
@[simp] theorem branchEffect_flags : (branchEffect taken target s).flags = s.flags := by cases taken <;> rfl
@[simp] theorem branchEffect_mem : (branchEffect taken target s).mem = s.mem := by cases taken <;> rfl
@[simp] theorem branchEffect_icache : (branchEffect taken target s).icache = s.icache := by cases taken <;> rfl
@[simp] theorem branchEffect_dcache : (branchEffect taken target s).dcache = s.dcache := by cases taken <;> rfl
@[simp] theorem branchEffect_engine : (branchEffect taken target s).engine = s.engine := by cases taken <;> rfl
@[simp] theorem branchEffect_cycles : (branchEffect taken target s).cycles = s.cycles := by cases taken <;> rfl

end Sys2Proof.Machine
end

