-- ==== Sys2Proof/Laws/Step.lean ====
section
/-! SUPPORT. What one cycle can do, said once (`stepWith_next_cases`), and the fetch stage's two outcomes. -/

namespace Sys2Proof.Machine

/-- A successful FETCH (R72, R74). -/
theorem fetchStage_ok {s s' : State} (h : fetchStage s = .ok s') :
    ∃ w icache, cacheLoad .fetch s.icache s.mem s.pc.toNat = .ok (w, icache) ∧
      s' = { s with ir := w, pc := s.pc + 1#32, icache := icache, engine := .decode } := by
  unfold fetchStage at h
  split at h
  · next w icache hl => exact ⟨w, icache, hl, by simpa using h.symm⟩
  · cases h

theorem fetchStage_of_load {s : State} {w : Word} {icache : Cache}
    (h : cacheLoad .fetch s.icache s.mem s.pc.toNat = .ok (w, icache)) :
    fetchStage s = .ok { s with ir := w, pc := s.pc + 1#32, icache := icache, engine := .decode } := by
  simp [fetchStage, h]

theorem fetchStage_error_iff {s : State} {f : Fault} :
    fetchStage s = .error f ↔ s.icache.lookup s.pc.toNat = none ∧ 65536 ≤ s.pc.toNat ∧
      f = .addressing .fetch s.pc.toNat := by
  rw [← cacheLoad_error_iff (m := s.mem)]
  unfold fetchStage
  cases cacheLoad .fetch s.icache s.mem s.pc.toNat <;> simp

theorem stepWith_running (opc : OpcodeMap) {s : State} (h : s.engine ≠ .halted) : stepWith opc s = runCycle opc s := by
  unfold stepWith
  cases he : s.engine <;> simp_all

theorem stepWith_halted (opc : OpcodeMap) {s : State} (h : s.engine = .halted) : stepWith opc s = .next s := by
  simp [stepWith, h]

theorem finishCycle_next {r : Result} {t : State} (h : finishCycle r = .next t) :
    ∃ u, r = .next u ∧ t = u.completeCycle := by
  cases r with
  | next u => exact ⟨u, rfl, by simpa [finishCycle] using h.symm⟩
  | fault f => cases h
  | refused w => cases h

/-- The state FETCH and DECODE leave for EXECUTE_MEM_WB. -/
abbrev fetched (s : State) (w : Word) (icache : Cache) : State :=
  { s with ir := w, pc := s.pc + 1#32, icache := icache, engine := .executeMemWb }

/-- The inversion lemma of a step: a HALTED engine stays as it is; otherwise the cycle fetched a word and ran the
instruction it decodes to, or ran nothing for an unknown opcode. -/
theorem stepWith_next_cases {opc : OpcodeMap} {s t : State} (h : stepWith opc s = .next t) :
    (s.engine = .halted ∧ t = s) ∨
    (s.engine ≠ .halted ∧ ∃ w icache, cacheLoad .fetch s.icache s.mem s.pc.toNat = .ok (w, icache) ∧
      ((∃ i u, decode opc w = .known i ∧ ExecEffect (fetched s w icache) i u ∧ t = u.completeCycle) ∨
       (decode opc w = .unknown ∧ t = (fetched s w icache).completeCycle))) := by
  by_cases hh : s.engine = .halted
  · rw [stepWith_halted opc hh] at h
    cases h
    exact .inl ⟨hh, rfl⟩
  · refine .inr ⟨hh, ?_⟩
    rw [stepWith_running opc hh] at h
    unfold runCycle at h
    split at h
    · next s' hf =>
      obtain ⟨w, icache, hl, rfl⟩ := fetchStage_ok hf
      obtain ⟨u, hu, rfl⟩ := finishCycle_next h
      refine ⟨w, icache, hl, ?_⟩
      cases hd : decode opc w with
      | known i =>
        simp only [executeStage, hd] at hu
        exact .inl ⟨i, u, rfl, exec_next_effect hu, rfl⟩
      | unknown =>
        simp only [executeStage, hd, execUnknown] at hu
        cases hu
        exact .inr ⟨rfl, rfl⟩
    · cases h

end Sys2Proof.Machine
end

