-- ==== Sys2Proof/Laws/HostOps.lean ====
section
/-! SUPPORT. What the host's operations can do: the loader, the preload, the loader text, and a run of steps. -/

namespace Sys2Proof.Machine

/-- The loader's writes keep memory's canonical form. -/
theorem storeWords_wf {words : List (Nat × Int)} {m m' : Memory} (hm : m.wf = true) (h : storeWords m words = .ok m') :
    m'.wf = true := by
  induction words generalizing m with
  | nil => cases h; exact hm
  | cons p rest ih =>
    unfold storeWords at h
    split at h
    · next ha => exact ih (Memory.wf_write _ _ _ ((inMemory_iff _).1 ha) hm) h
    · cases h

/-- All that a load which succeeds does: before the first cycle, to memory alone. -/
theorem loadProgram_ok_iff {words : List (Nat × Int)} {s t : State} :
    loadProgram words s = .ok t ↔
      beforeFirstCycle s = true ∧ ∃ mem, storeWords s.mem words = .ok mem ∧ t = { s with mem := mem } := by
  unfold loadProgram
  by_cases hb : beforeFirstCycle s = true
  · cases storeWords s.mem words <;> simp [hb, eq_comm]
  · simp [hb]

/-- All that a preload which succeeds does: before the first cycle, to its register alone. -/
theorem preload_ok_iff {i : Fin 32} {v : Int} {s t : State} :
    preload i v s = .ok t ↔ beforeFirstCycle s = true ∧ t = s.setReg i (mask32 v) := by
  unfold preload
  by_cases hb : beforeFirstCycle s = true <;> simp [hb, eq_comm]

/-- A line of 32 characters is one word at the current address. -/
theorem loaderPairs_bits {a v : Nat} {chars : List Char} {rest : List LoaderLine} {pairs : List (Nat × Int)}
    (hlen : chars.length = 32) (hv : bitsValue 0 chars = some v) (hrest : loaderPairs (a + 1) rest = some pairs) :
    loaderPairs a (.bits chars :: rest) = some ((a, (v : Int)) :: pairs) := by
  simp [loaderPairs, hlen, hv, hrest]

@[simp] theorem loaderPairs_directive (a b : Nat) (rest : List LoaderLine) :
    loaderPairs b (.directive a :: rest) = loaderPairs a rest := rfl

theorem stepsWith_succ {opc : OpcodeMap} {k : Nat} {s t : State} (h : stepWith opc s = .next t) :
    stepsWith opc (k + 1) s = stepsWith opc k t := by
  simp [stepsWith, h]

/-- A fault's report numbers the cycle after those completed (R137). -/
@[simp] theorem faultReport_cycle (s : State) (f : Fault) : (faultReport s f).cycle = s.cycles + 1 := by
  unfold faultReport; split <;> rfl

/-- A cycle that ends in a fault is not counted (R139). -/
@[simp] theorem faultState_cycles (s : State) : (faultState s).cycles = s.cycles := by
  unfold faultState
  split
  · next s' h => obtain ⟨w, icache, -, rfl⟩ := fetchStage_ok h; rfl
  · rfl

end Sys2Proof.Machine
end

