-- ==== Sys2Proof/Laws/PerInstr.lean ====
section
/-! SUPPORT. Families of statements made once per instruction (LAWS.json). -/

namespace Sys2Proof.Laws

/-- OpcodeByte: bits 31 to 24 of an encoded instruction are its mnemonic's opcode, under every opcode map (R56, R68). -/
def OpcodeByte.Statement (i : Instr) : Prop := ∀ opc : OpcodeMap, opcodeOf (encode opc i) = opc.value i.mnemonic

theorem OpcodeByte.add (ra rb rc : Byte) : OpcodeByte.Statement (.add ra rb rc) := fun _ => opcodeOf_encodeR _ _ _ _
theorem OpcodeByte.sub (ra rb rc : Byte) : OpcodeByte.Statement (.sub ra rb rc) := fun _ => opcodeOf_encodeR _ _ _ _
theorem OpcodeByte.zeros (ra rb rc : Byte) : OpcodeByte.Statement (.zeros ra rb rc) := fun _ => opcodeOf_encodeR _ _ _ _
theorem OpcodeByte.xor (ra rb rc : Byte) : OpcodeByte.Statement (.xor ra rb rc) := fun _ => opcodeOf_encodeR _ _ _ _
theorem OpcodeByte.or (ra rb rc : Byte) : OpcodeByte.Statement (.or ra rb rc) := fun _ => opcodeOf_encodeR _ _ _ _
theorem OpcodeByte.not (ra rb rc : Byte) : OpcodeByte.Statement (.not ra rb rc) := fun _ => opcodeOf_encodeR _ _ _ _
theorem OpcodeByte.and (ra rb rc : Byte) : OpcodeByte.Statement (.and ra rb rc) := fun _ => opcodeOf_encodeR _ _ _ _
theorem OpcodeByte.asl (ra rb rc : Byte) : OpcodeByte.Statement (.asl ra rb rc) := fun _ => opcodeOf_encodeR _ _ _ _
theorem OpcodeByte.asr (ra rb rc : Byte) : OpcodeByte.Statement (.asr ra rb rc) := fun _ => opcodeOf_encodeR _ _ _ _
theorem OpcodeByte.lsl (ra rb rc : Byte) : OpcodeByte.Statement (.lsl ra rb rc) := fun _ => opcodeOf_encodeR _ _ _ _
theorem OpcodeByte.lsr (ra rb rc : Byte) : OpcodeByte.Statement (.lsr ra rb rc) := fun _ => opcodeOf_encodeR _ _ _ _
theorem OpcodeByte.passa (ra rb rc : Byte) : OpcodeByte.Statement (.passa ra rb rc) := fun _ => opcodeOf_encodeR _ _ _ _
theorem OpcodeByte.lclMsb (imm16 : BitVec 16) (d : Byte) : OpcodeByte.Statement (.lclMsb imm16 d) :=
  fun _ => opcodeOf_encodeI _ _ _
theorem OpcodeByte.lclLsb (imm16 : BitVec 16) (d : Byte) : OpcodeByte.Statement (.lclLsb imm16 d) :=
  fun _ => opcodeOf_encodeI _ _ _
theorem OpcodeByte.load (ra rb rc : Byte) : OpcodeByte.Statement (.load ra rb rc) := fun _ => opcodeOf_encodeR _ _ _ _
theorem OpcodeByte.store (ra rb rc : Byte) : OpcodeByte.Statement (.store ra rb rc) := fun _ => opcodeOf_encodeR _ _ _ _
theorem OpcodeByte.jal (addr24 : BitVec 24) : OpcodeByte.Statement (.jal addr24) := fun _ => opcodeOf_encodeJ _ _
theorem OpcodeByte.jr (ra rb rc : Byte) : OpcodeByte.Statement (.jr ra rb rc) := fun _ => opcodeOf_encodeR _ _ _ _
theorem OpcodeByte.beq (ra rb t : Byte) : OpcodeByte.Statement (.beq ra rb t) := fun _ => opcodeOf_encodeR _ _ _ _
theorem OpcodeByte.bne (ra rb t : Byte) : OpcodeByte.Statement (.bne ra rb t) := fun _ => opcodeOf_encodeR _ _ _ _
theorem OpcodeByte.j (addr24 : BitVec 24) : OpcodeByte.Statement (.j addr24) := fun _ => opcodeOf_encodeJ _ _
theorem OpcodeByte.mul (ra rb rc : Byte) : OpcodeByte.Statement (.mul ra rb rc) := fun _ => opcodeOf_encodeR _ _ _ _
theorem OpcodeByte.div (ra rb rc : Byte) : OpcodeByte.Statement (.div ra rb rc) := fun _ => opcodeOf_encodeR _ _ _ _
theorem OpcodeByte.mod (ra rb rc : Byte) : OpcodeByte.Statement (.mod ra rb rc) := fun _ => opcodeOf_encodeR _ _ _ _
theorem OpcodeByte.neg (ra rb rc : Byte) : OpcodeByte.Statement (.neg ra rb rc) := fun _ => opcodeOf_encodeR _ _ _ _
theorem OpcodeByte.inc (ra rb rc : Byte) : OpcodeByte.Statement (.inc ra rb rc) := fun _ => opcodeOf_encodeR _ _ _ _
theorem OpcodeByte.dec (ra rb rc : Byte) : OpcodeByte.Statement (.dec ra rb rc) := fun _ => opcodeOf_encodeR _ _ _ _
theorem OpcodeByte.bgt (ra rb t : Byte) : OpcodeByte.Statement (.bgt ra rb t) := fun _ => opcodeOf_encodeR _ _ _ _
theorem OpcodeByte.blt (ra rb t : Byte) : OpcodeByte.Statement (.blt ra rb t) := fun _ => opcodeOf_encodeR _ _ _ _
theorem OpcodeByte.halt : OpcodeByte.Statement .halt := fun _ => opcodeOf_encodeJ _ _

end Sys2Proof.Laws
end

