-- ==== Sys2Proof/Tests/Slice0.lean ====
section
/-! SUPPORT. The model's own tests: ill-formed terms, words written out from 30_encoding.md, the vectors of
95_test_vectors.md (named by their numbers there), and for every obligation with hypotheses a state that meets them. -/

namespace Sys2Proof.Tests

open Sys2Proof.Machine

/-! ## The register-field checks refuse ill-formed terms -/

theorem test_wf_refuses_ra_32 : (Instr.add 32 0 0).wf = false ∧ (Instr.add 31 0 0).wf = true := by decide
theorem test_wf_refuses_rb_32 : (Instr.store 0 32 0).wf = false ∧ (Instr.store 0 31 0).wf = true := by decide
theorem test_wf_refuses_rc_32 : (Instr.jr 0 0 32).wf = false ∧ (Instr.jr 0 0 31).wf = true := by decide
theorem test_wf_refuses_d_32 :
    (Instr.lclLsb 0xFFFF 32).wf = false ∧ (Instr.lclMsb 0xFFFF 255).wf = false ∧ (Instr.lclLsb 0xFFFF 31).wf = true := by
  decide
theorem test_wf_refuses_branch_ra_rb_and_not_its_target :
    (Instr.beq 32 0 0).wf = false ∧ (Instr.blt 0 32 0).wf = false ∧ (Instr.bne 31 31 255).wf = true := by decide
theorem test_wf_accepts_jumps_and_halt :
    (Instr.j 0xFFFFFF).wf = true ∧ (Instr.jal 0xFFFFFF).wf = true ∧ Instr.halt.wf = true := by decide

/-! ## Decoding: words laid out by R57 to R59, opcodes of R64 (log entry 1) -/

theorem test_decode_arithmetic :
    decode refOpc 0x01010203#32 = .known (.add 1 2 3) ∧ decode refOpc 0x021E1D1F#32 = .known (.sub 30 29 31) ∧
    decode refOpc 0x17040506#32 = .known (.mul 4 5 6) ∧ decode refOpc 0x18010203#32 = .known (.div 1 2 3) ∧
    decode refOpc 0x19070809#32 = .known (.mod 7 8 9) ∧ decode refOpc 0x1A0A000B#32 = .known (.neg 10 0 11) ∧
    decode refOpc 0x1B010001#32 = .known (.inc 1 0 1) ∧ decode refOpc 0x1CFF00FE#32 = .known (.dec 255 0 254) := by
  decide
theorem test_decode_logic :
    decode refOpc 0x03000002#32 = .known (.zeros 0 0 2) ∧ decode refOpc 0x04030104#32 = .known (.xor 3 1 4) ∧
    decode refOpc 0x05010102#32 = .known (.or 1 1 2) ∧ decode refOpc 0x06FF0000#32 = .known (.not 255 0 0) ∧
    decode refOpc 0x07010203#32 = .known (.and 1 2 3) ∧ decode refOpc 0x0C050007#32 = .known (.passa 5 0 7) := by
  decide
theorem test_decode_shifts :
    decode refOpc 0x08010203#32 = .known (.asl 1 2 3) ∧ decode refOpc 0x09010203#32 = .known (.asr 1 2 3) ∧
    decode refOpc 0x0A010203#32 = .known (.lsl 1 2 3) ∧ decode refOpc 0x0B010203#32 = .known (.lsr 1 2 3) := by
  decide
theorem test_decode_load_constant_load_store :
    decode refOpc 0x0E800107#32 = .known (.lclMsb 0x8001 7) ∧ decode refOpc 0x0FBEEF01#32 = .known (.lclLsb 0xBEEF 1) ∧
    decode refOpc 0x10020003#32 = .known (.load 2 0 3) ∧ decode refOpc 0x11010002#32 = .known (.store 1 0 2) := by
  decide
theorem test_decode_control :
    decode refOpc 0x12000100#32 = .known (.jal 0x100) ∧ decode refOpc 0x16FFFFFF#32 = .known (.j 0xFFFFFF) ∧
    decode refOpc 0x1300001F#32 = .known (.jr 0 0 31) ∧ decode refOpc 0x1401020A#32 = .known (.beq 1 2 10) ∧
    decode refOpc 0x15010200#32 = .known (.bne 1 2 0) ∧ decode refOpc 0x1D010209#32 = .known (.bgt 1 2 9) ∧
    decode refOpc 0x1E010209#32 = .known (.blt 1 2 9) ∧ decode refOpc 0xFFFFFFFF#32 = .known .halt := by
  decide
theorem test_decode_unknown :
    decode refOpc 0x00000000#32 = .unknown ∧ decode refOpc 0x0D123456#32 = .unknown ∧
    decode refOpc 0x1F000000#32 = .unknown ∧ decode refOpc 0xFE000000#32 = .unknown := by decide
/-- R68's example, and halt's zero-filled word. -/
theorem test_encode :
    encode refOpc (.add 1 2 3) = 0x01010203#32 ∧ encode refOpc (.lclMsb 0x8001 7) = 0x0E800107#32 ∧
    encode refOpc (.jal 0x100) = 0x12000100#32 ∧ encode refOpc .halt = 0xFF000000#32 := by decide
/-- 95_test_vectors.md's encoder vectors and words from R69's operand orders, the unused fields zero. -/
theorem test_encode_operand_lists :
    encodeOperands refOpc .sub [31, 30, 29] = some 0x021E1D1F#32 ∧
    encodeOperands refOpc .lclMsb [7, 0x8001] = some 0x0E800107#32 ∧
    encodeOperands refOpc .jal [0x100] = some 0x12000100#32 ∧
    encodeOperands refOpc .store [2, 1] = some 0x11010002#32 ∧
    encodeOperands refOpc .load [3, 2] = some 0x10020003#32 ∧
    encodeOperands refOpc .zeros [2] = some 0x03000002#32 ∧ encodeOperands refOpc .inc [4, 4] = some 0x1B040004#32 ∧
    encodeOperands refOpc .jr [31] = some 0x1300001F#32 ∧ encodeOperands refOpc .beq [1, 2, 10] = some 0x1401020A#32 ∧
    encodeOperands refOpc .halt [] = some 0xFF000000#32 := by decide
/-- R154: the first word goes to address 0, the next to 1; a directive sets the address. -/
theorem test_loader_text :
    loaderProgram [.bits ('1' :: List.replicate 31 '0'), .bits (List.replicate 31 '0' ++ ['1']), .directive 9,
      .bits (List.replicate 32 '1')] = some [(0, 0x80000000), (1, 1), (9, 0xFFFFFFFF)] := by decide

/-! ## One step of each instruction from reset with registers preloaded -/

/-- A state with these registers written. -/
def withRegs (values : List (Fin 32 × Word)) (s : State) : State := values.foldl (fun s r => s.setReg r.1 r.2) s

/-- The next state, where there is one. -/
def nextOf : Result → Option State
  | .next t => some t
  | .fault _ | .refused _ => none

/-- The fault, where there is one. -/
def faultOf : Result → Option Fault
  | .fault f => some f
  | .next _ | .refused _ => none

/-- Reset, with registers preloaded and `w` as the next instruction. -/
def ready (w : Word) (values : List (Fin 32 × Word)) : State := (withRegs values State.reset).withFetchWord 32 w.toNat

/-- r3 and the flags Z, N, C, V after the R-type word of opcode `op` on r1 and r2, with its result to r3. -/
def aluStep (op : Byte) (a b : Word) : Option (Word × Flags) :=
  (nextOf (step (ready (encodeR op 1 2 3) [(1, a), (2, b)]))).map fun t => (t.reg 3, t.flags)

/-- Every opcode of R64 runs as the first instruction after reset, its operand fields zero. -/
theorem test_every_row_steps :
    ((Mnemonic.all.map refOpcode).all fun op => (nextOf (step (ready (encodeR op 0 0 0) []))).isSome) = true := by
  decide

theorem test_add_AL4 : aluStep 0x01 0x80000000 0x80000000 = some (0, ⟨true, false, true, true⟩) := by decide
theorem test_add_AL5 : aluStep 0x01 0xFFFFFFFF 0xFFFFFFFF = some (0xFFFFFFFE, ⟨false, true, true, false⟩) := by decide
theorem test_sub_AL7 : aluStep 0x02 5 10 = some (0xFFFFFFFB, ⟨false, true, true, false⟩) := by decide
theorem test_sub_AL10 : aluStep 0x02 0x80000000 1 = some (0x7FFFFFFF, ⟨false, false, false, true⟩) := by decide
theorem test_zeros_AL13 : aluStep 0x03 0x1234 0x5678 = some (0, ⟨true, false, false, false⟩) := by decide
theorem test_xor_AL14 : aluStep 0x04 0xF0F0F0F0 0xFF00FF00 = some (0x0FF00FF0, ⟨false, false, false, false⟩) := by decide
theorem test_or_AL16 : aluStep 0x05 0xF0F0F0F0 0x0F0F0F0F = some (0xFFFFFFFF, ⟨false, true, false, false⟩) := by decide
theorem test_not_AL17 : aluStep 0x06 0 0x1234 = some (0xFFFFFFFF, ⟨false, true, false, false⟩) := by decide
theorem test_and_AL19 : aluStep 0x07 0xDEADBEEF 0xFFFFFFFF = some (0xDEADBEEF, ⟨false, true, false, false⟩) := by decide
theorem test_asl_AL22 : aluStep 0x08 0xC0000000 1 = some (0x80000000, ⟨false, true, false, false⟩) := by decide
theorem test_asl_AL23 : aluStep 0x08 0x12345678 0x20 = some (0x12345678, ⟨false, false, false, false⟩) := by decide
theorem test_asr_AL31 : aluStep 0x09 0x7FFFFFF0 4 = some (0x07FFFFFF, ⟨false, false, false, false⟩) := by decide
theorem test_asr_AL32 : aluStep 0x09 0xFFFFFFF0 0x24 = some (0xFFFFFFFF, ⟨false, true, false, false⟩) := by decide
theorem test_lsl_AL25 : aluStep 0x0A 1 0x21 = some (2, ⟨false, false, false, false⟩) := by decide
theorem test_lsr_AL26 : aluStep 0x0B 0x80000000 0x1F = some (1, ⟨false, false, false, false⟩) := by decide
theorem test_passa_AL33 : aluStep 0x0C 0x80000000 0x1234 = some (0x80000000, ⟨false, true, false, false⟩) := by decide
theorem test_mul_AL36 : aluStep 0x17 0x10000 0x10000 = some (0, ⟨true, false, false, false⟩) := by decide
theorem test_mul_AL38 : aluStep 0x17 0xFFFFFFFF 2 = some (0xFFFFFFFE, ⟨false, true, false, false⟩) := by decide
theorem test_div_AL40 : aluStep 0x18 0xFFFFFFFB 2 = some (0x7FFFFFFD, ⟨false, false, false, false⟩) := by decide
theorem test_div_AL41 : aluStep 0x18 7 0 = some (0, ⟨true, false, false, false⟩) := by decide
theorem test_mod_AL44 : aluStep 0x19 0xFFFFFFFB 2 = some (1, ⟨false, false, false, false⟩) := by decide
theorem test_mod_AL45 : aluStep 0x19 7 0 = some (0, ⟨true, false, false, false⟩) := by decide
theorem test_neg_AL47 : aluStep 0x1A 0 9 = some (0, ⟨true, false, false, false⟩) := by decide
theorem test_neg_AL48 : aluStep 0x1A 0x80000000 9 = some (0x80000000, ⟨false, true, true, true⟩) := by decide
theorem test_inc_AL50 : aluStep 0x1B 0xFFFFFFFF 9 = some (0, ⟨true, false, true, false⟩) := by decide
theorem test_inc_AL51 : aluStep 0x1B 0x7FFFFFFF 9 = some (0x80000000, ⟨false, true, false, true⟩) := by decide
theorem test_dec_AL53 : aluStep 0x1C 0 9 = some (0xFFFFFFFF, ⟨false, true, true, false⟩) := by decide
theorem test_dec_AL54 : aluStep 0x1C 0x80000000 9 = some (0x7FFFFFFF, ⟨false, false, false, true⟩) := by decide

/-- AL57: a destination of r0 keeps r0 and writes the flags. -/
theorem test_add_to_r0_AL57 :
    (nextOf (step (ready 0x01010100 [(1, 0x80000000)]))).map (fun t => (t.reg 0, t.flags)) =
      some (0, ⟨true, false, true, true⟩) := by decide
theorem test_lclMsb_LC1 :
    (nextOf (step (ready 0x0EABCD01 [(1, 0x12345678)]))).map (·.reg 1) = some 0xABCD5678 := by decide
theorem test_lclMsb_to_r0_LC6 : (nextOf (step (ready 0x0E123400 []))).map (·.reg 0) = some 0 := by decide
theorem test_lclLsb_LC2 :
    (nextOf (step (ready 0x0FABCD01 [(1, 0x12345678)]))).map (·.reg 1) = some 0x1234ABCD := by decide
theorem test_lclLsb_LC8 : faultOf (step (ready 0x0F00FF20 [])) = some (.registerIndex .d 32) := by decide
/-- MS7's load, of the word just fetched: a miss of the dcache, whose map is its own. -/
theorem test_load_MS7 :
    (nextOf (step (ready 0x10000005 []))).map (fun t => (t.reg 5, t.dcache, t.icache.hits, t.icache.misses)) =
      some (0x10000005, ⟨[(0, 0x10000005)], 0, 1⟩, 0, 1) := by decide
theorem test_load_MS5 : faultOf (step (ready 0x10020003 [(2, 65536)])) = some (.addressing .load 65536) := by decide
theorem test_store_MS4 :
    (nextOf (step (ready 0x11010002 [(1, 5), (2, 65535)]))).map (fun t => (t.mem.cells, t.dcache)) =
      some ([(0, 0x11010002), (65535, 5)], ⟨[(65535, 5)], 0, 0⟩) := by decide
theorem test_store_MS6 :
    faultOf (step (ready 0x11010002 [(1, 5), (2, 0xFFFFFFFF)])) = some (.addressing .store 0xFFFFFFFF) := by decide
theorem test_j_CT1 : (nextOf (step (ready 0x16000005 []))).map (·.pc) = some 5 := by decide
theorem test_jal_CT9 :
    (nextOf (step (ready 0x12FFFFFF []))).map (fun t => (t.pc, t.reg 31)) = some (16777215, 1) := by decide
theorem test_jr_CT3 : (nextOf (step (ready 0x1300001F [(31, 8)]))).map (·.pc) = some 8 := by decide
theorem test_beq_CT8 : (nextOf (step (ready 0x140000FF []))).map (·.pc) = some 255 := by decide
theorem test_beq_CY9 : faultOf (step (ready 0x1400FF05 [])) = some (.registerIndex .rb 255) := by decide
theorem test_bne_not_taken : (nextOf (step (ready 0x15010209 [(1, 6), (2, 6)]))).map (·.pc) = some 1 := by decide
theorem test_bgt_CT15 : branchGreater false 0xFFFFFFFF 1 = true ∧ branchGreater true 0xFFFFFFFF 1 = false := by decide
theorem test_blt_CT16 :
    branchLess false 0x80000000 0x7FFFFFFF = false ∧ branchLess true 0x80000000 0x7FFFFFFF = true := by decide
theorem test_halt_CT11 :
    (nextOf (step (ready 0xFFFFFFFF []))).map (fun t => (t.engine, t.pc, t.cycles)) = some (.halted, 1, 1) := by decide
theorem test_unknown_CY12 :
    (nextOf (step (ready 0x0D123456 []))).map (fun t => (t.pc, t.ir, t.cycles, t.engine)) =
      some (1, 0x0D123456, 1, .fetch) := by decide
theorem test_unknown_record_CY12 :
    decodedRecord refOpc 0 0x0D123456 = ⟨0, 0x0D123456, 0, none, ⟨0, 0, 0, 0, 0⟩⟩ := by decide
/-- CY6: the report and the state a DECODE fault leaves. -/
theorem test_fault_report_CY6 :
    (hostStep refOpc (ready 0x01200102 [])).1 =
        .fault ⟨.registerIndex .ra 32, 1, 0, some 0x01200102⟩ ∧
      (hostStep refOpc (ready 0x01200102 [])).2.pc = 1 ∧ (hostStep refOpc (ready 0x01200102 [])).2.cycles = 0 := by
  decide
/-- Scenario D: a lone halt ends the run in one cycle. -/
theorem test_run_scenario_D :
    (match runDefault refOpc (ready 0xFF000000 []) with
      | .halted t => some (t.pc, t.cycles)
      | .cycleLimitExceeded _ | .fault _ _ | .refused _ _ => none) = some (1, 1) := by decide

/-! ## Witnesses: a state and operands that meet every hypothesis of an obligation, together -/

/-- A state between cycles that is not reset: pc at the last address, a stale icache entry for it, a dcache entry that
equals memory, and r1 and r2 at the two sides of memory's end. -/
def warm : State :=
  { withRegs [(1, 65535), (2, 65536), (3, 7), (31, 65535)] State.reset with
    pc := 65535
    mem := ⟨[(0, 0x10010003), (9, 5), (65535, 0x01010203)]⟩
    icache := ⟨[(65535, 0x13000002)], 3, 4⟩
    dcache := ⟨[(9, 5)], 1, 1⟩
    cycles := 7 }

theorem warm_inv : warm.Inv where
  mem_wf := by decide
  icache_wf := by decide
  dcache_wf := by decide
  dcache_coherent a v h := by
    have h' : (if 9 = a then some 5#32 else none) = some v := h
    split at h'
    · next e => subst e; cases h'; decide
    · cases h'
  between_cycles := .inl rfl

/-- A step of `warm`: its stale fetch is `jr r2`, so it leaves pc at 65536. -/
theorem warm_next : ∃ t, step warm = .next t ∧ t.pc = 65536 ∧ t.engine ≠ .halted ∧ 65536 ≤ t.pc.toNat := by
  refine ⟨_, rfl, ?_⟩
  decide

theorem witness_EncodingADecodedWordGivesItBack :
    decode refOpc 0x0FFFFF20#32 = .known (.lclLsb 0xFFFF 32) ∧ Instr.lclLsb 0xFFFF 32 ≠ .halt := by decide
/-- A list with the largest values, one of another length, and one wider than its field. -/
theorem witness_EncodingAnOperandListZeroFills :
    List.Forall₂ (fun f v => v < 2 ^ f.width) (Mnemonic.operandFields .lclMsb) [255, 65535] ∧
    List.Forall₂ (fun f v => v < 2 ^ f.width) (Mnemonic.operandFields .zeros) [0] ∧
    ¬ List.Forall₂ (fun f v => v < 2 ^ f.width) (Mnemonic.operandFields .zeros) [] ∧
    ¬ List.Forall₂ (fun f v => v < 2 ^ f.width) (Mnemonic.operandFields .lclMsb) [255, 65536] := by decide
theorem witness_OpcodeByteSelectsTheMnemonic :
    (refOpc.value .halt).toNat = (0xFF000001#32).toNat / 2 ^ 24 ∧
    (refOpc.value .add).toNat = (0x01FFFFFF#32).toNat / 2 ^ 24 ∧
    ∀ m ∈ Mnemonic.all, (refOpc.value m).toNat ≠ (0xFEFFFFFF#32).toNat / 2 ^ 24 := by decide
theorem witness_EveryStepKeepsTheInvariant : warm.Inv ∧ ∃ t, stepWith refOpc warm = .next t := ⟨warm_inv, _, rfl⟩
/-- A preload of r0 and then a load: a launch state, from a state that is not reset. -/
theorem witness_LaunchStatesMeetTheInvariant :
    Launched (State.reset.setReg 0 7) ∧ (State.reset.setReg 0 7).Inv ∧
    (∀ a, (State.reset.setReg 0 7).dcache.lookup a = none) ∧
    (∃ t, loadProgram [(0, 5), (65535, -1)] (State.reset.setReg 0 7) = .ok t ∧ Launched t) ∧
    ∃ t, preload 31 (2 ^ 32 + 7) (State.reset.setReg 0 7) = .ok t :=
  have launched : Launched (State.reset.setReg 0 7) := .preload 0 7 .reset rfl
  ⟨launched, ⟨rfl, rfl, rfl, fun _ _ h => (by cases h), .inl rfl⟩, fun _ => rfl,
    ⟨_, rfl, .load [(0, 5), (65535, -1)] launched rfl⟩, _, rfl⟩
theorem witness_LoaderPlacesTheWords :
    beforeFirstCycle State.reset = true ∧ (∀ p ∈ [(0, (5 : Int)), (65535, -1), (0, 6)], p.1 < 65536) ∧
    (∃ p ∈ [(0, (5 : Int)), (65536, -1)], 65536 ≤ p.1) ∧
    ∃ t, loadProgram [(0, 5), (65535, -1), (0, 6)] State.reset = .ok t ∧ t.mem.read 0 = 6 ∧
      t.mem.read 65535 = 0xFFFFFFFF :=
  ⟨by decide, by decide, by decide, _, rfl, by decide, by decide⟩
/-- The last address and address 0, each with one more word to come. -/
theorem witness_LoaderTextFirstCharacterIsBit31 :
    loaderPairs (65535 + 1) [.bits (List.replicate 32 '0')] = some [(65536, 0)] ∧
    loaderPairs 0 [.bits (List.replicate 32 '0')] = some [(0, 0)] ∧
    loaderPairs 1 [.bits (List.replicate 32 '0')] = some [(1, 0)] ∧
    LoaderLine.bits (List.replicate 32 '0') =
      .bits ((List.range 32).map fun k => if (0#32).getLsbD (31 - k) then '1' else '0') := by decide
theorem witness_MemoriesThatReadAlikeAreEqual :
    (⟨[(65535, 1)]⟩ : Memory).wf = true ∧ (Memory.write ⟨[(65535, 2)]⟩ 65535 1).wf = true ∧
    ∀ a, (⟨[(65535, 1)]⟩ : Memory).read a = (Memory.write ⟨[(65535, 2)]⟩ 65535 1).read a :=
  ⟨by decide, by decide, fun _ => rfl⟩
theorem witness_MainMemoryLoadsAndStores : (65535 : Nat) < 65536 ∧ (65536 : Nat) ≤ 65536 := by decide
theorem witness_CacheLoadHitsMissesAndFaults :
    warm.dcache.lookup 9 = some 5 ∧ warm.dcache.lookup 65535 = none ∧ (65535 : Nat) < 65536 ∧
    warm.dcache.lookup 65536 = none ∧ (65536 : Nat) ≤ 65536 ∧ warm.dcache.wf = true := by decide
theorem witness_CachedAddressesStayCached :
    (∃ t, stepsWith refOpc 1 warm = some t) ∧ (warm.icache.lookup 65535).isSome = true ∧
    (warm.dcache.lookup 9).isSome = true := ⟨⟨_, rfl⟩, by decide, by decide⟩
/-- The stale entry is latched though memory holds another word; and a first fetch, after one step from reset. -/
theorem witness_LaterStoresNeverReachAFetchedAddress :
    (∃ t u, stepsWith refOpc 0 warm = some t ∧ t.engine ≠ .halted ∧ stepWith refOpc t = .next u ∧
      warm.icache.lookup t.pc.toNat = some 0x13000002 ∧ t.mem.read t.pc.toNat = 0x01010203) ∧
    (∃ t u, stepsWith refOpc 1 State.reset = some t ∧ t.engine ≠ .halted ∧ stepWith refOpc t = .next u ∧
      t.icache.lookup t.pc.toNat = none) :=
  ⟨⟨_, _, rfl, by decide, rfl, by decide, by decide⟩, _, _, rfl, by decide, rfl, by decide⟩
theorem witness_AddPathResultCarryAndOverflow :
    (AluOp.inc = .add ∧ (1#32) = 9 ∨ AluOp.inc = .inc ∧ (1#32) = 1#32) ∧ (AluOp.add = .add ∧ (9#32) = 9#32) := by decide
theorem witness_SubPathResultBorrowAndOverflow :
    (AluOp.sub = .sub ∧ (5#32) = 5#32) ∧ (AluOp.neg = .neg ∧ (0#32) = 0#32) ∧ (AluOp.dec = .dec ∧ (1#32) = 1#32) := by
  decide
theorem witness_LogicPathClearsCarryAndOverflow :
    AluOp.zeros ∈ [AluOp.zeros, .xor, .or, .not, .and, .asl, .asr, .lsl, .lsr, .passa, .mul, .div, .mod] ∧
    AluOp.mod ∈ [AluOp.zeros, .xor, .or, .not, .and, .asl, .asr, .lsl, .lsr, .passa, .mul, .div, .mod] := by decide
theorem witness_LogicalResultsBitByBit : (31 : Nat) < 32 := by decide
theorem witness_ProductQuotientAndRemainder : (0#32 : Word) = 0#32 ∧ (1#32 : Word) ≠ 0#32 := by decide
/-- RC at 31 and at 0. -/
theorem witness_AluInstructionsComplete :
    aluOperation (.add 31 0 31) = some (.add, 31, 0, 31) ∧ aluOperation (.dec 1 31 0) = some (.dec, 1, 31, 0) ∧
    (31#8).toNat = (31 : Fin 32) ∧ (1#8).toNat = (1 : Fin 32) ∧ (0#8).toNat = (0 : Fin 32) := by decide
theorem witness_LoadConstantReplacesOneHalf : (31#8).toNat = (31 : Fin 32) ∧ (0#8).toNat = (0 : Fin 32) := by decide
theorem witness_TwoLoadConstantsLoadAnyWord : (31#8).toNat = (31 : Fin 32) ∧ (31 : Fin 32) ≠ 0 := by decide
theorem witness_LoadMissReadsMemoryAndFills :
    (1#8).toNat = (1 : Fin 32) ∧ (31#8).toNat = (31 : Fin 32) ∧ (0#8).toNat = (0 : Fin 32) ∧
    warm.dcache.lookup (effectiveAddress warm 1) = none ∧ effectiveAddress warm 1 = 65535 ∧
    effectiveAddress warm 1 < 65536 := by decide
theorem witness_LoadHitReturnsTheEntry :
    (1#8).toNat = (1 : Fin 32) ∧ (0#8).toNat = (0 : Fin 32) ∧
    (warm.setReg 1 9).dcache.lookup (effectiveAddress (warm.setReg 1 9) 1) = some 5 := by decide
/-- The state EXECUTE_MEM_WB runs on, with a load that misses at the last address; then one that hits. -/
theorem witness_LoadReturnsWhatMemoryHolds :
    (∀ k v, { warm with engine := .executeMemWb }.dcache.lookup k = some v → warm.mem.read k = v) ∧
    (31#8).toNat = (31 : Fin 32) ∧ effectiveAddress { warm with engine := .executeMemWb } 31 = 65535 ∧
    (∀ k v, (warm.setReg 1 9).dcache.lookup k = some v → (warm.setReg 1 9).mem.read k = v) ∧
    effectiveAddress (warm.setReg 1 9) 1 < 65536 :=
  ⟨warm_inv.dcache_coherent, by decide, by decide, warm_inv.dcache_coherent, by decide⟩
theorem witness_StoreWritesMemoryAndTheMap :
    (3#8).toNat = (3 : Fin 32) ∧ (0#8).toNat = (0 : Fin 32) ∧ (31#8).toNat = (31 : Fin 32) ∧
    effectiveAddress warm 31 = 65535 ∧ effectiveAddress warm 31 < 65536 := by decide
theorem witness_LoadAfterStoreReturnsTheStoredWord :
    (3#8).toNat = (3 : Fin 32) ∧ (0#8).toNat = (0 : Fin 32) ∧ (31#8).toNat = (31 : Fin 32) ∧
    (1#8).toNat = (1 : Fin 32) ∧
    ∃ t, exec (.store 3 0 31) warm = .next t ∧ effectiveAddress t 31 = effectiveAddress warm 31 ∧
      effectiveAddress t 1 = effectiveAddress warm 31 :=
  ⟨by decide, by decide, by decide, by decide, _, rfl, by decide, by decide⟩
theorem witness_JumpRegisterSetsThePc : (2#8).toNat = (2 : Fin 32) ∧ warm.reg 2 = 65536 := by decide
/-- Both instructions, on equal and on differing registers, with the largest target. -/
theorem witness_EqualityBranchesGoToTheirField :
    (1#8).toNat = (1 : Fin 32) ∧ (2#8).toNat = (2 : Fin 32) ∧ (31#8).toNat = (31 : Fin 32) ∧
    warm.reg 1 = warm.reg 31 ∧ warm.reg 1 ≠ warm.reg 2 ∧
    (Instr.beq 1 2 255 = .beq 1 2 255 ∨ Instr.beq 1 2 255 = .bne 1 2 255) ∧
    (Instr.bne 1 31 255 = .beq 1 31 255 ∨ Instr.bne 1 31 255 = .bne 1 31 255) := by decide
/-- Registers whose signed and unsigned orders differ. -/
theorem witness_OrderBranchesCompareAsBranchSignedSays :
    (1#8).toNat = (1 : Fin 32) ∧ (2#8).toNat = (2 : Fin 32) ∧
    ((warm.setReg 1 0xFFFFFFFF).reg 1).toInt < ((warm.setReg 1 0xFFFFFFFF).reg 2).toInt ∧
    ((warm.setReg 1 0xFFFFFFFF).reg 2).toNat < ((warm.setReg 1 0xFFFFFFFF).reg 1).toNat := by decide
theorem witness_HaltStopsTheEngine :
    (ready 0xFF123456 []).engine ≠ .halted ∧ opcodeOf 0xFF123456 = 0xFF#8 ∧
    ∃ icache, cacheLoad .fetch (ready 0xFF123456 []).icache (ready 0xFF123456 []).mem
      (ready 0xFF123456 []).pc.toNat = .ok (0xFF123456, icache) := ⟨by decide, by decide, _, rfl⟩
theorem witness_NothingLeavesHalted : { warm with engine := .halted }.engine = .halted := rfl
/-- A cycle that ends halted, and one that does not. -/
theorem witness_OnlyHaltChangesTheEngineState :
    (ready 0xFF123456 []).engine ≠ .halted ∧ (∃ t, stepWith refOpc (ready 0xFF123456 []) = .next t ∧
      t.engine = .halted) ∧ warm.engine ≠ .halted ∧ ∃ t, stepWith refOpc warm = .next t ∧ t.engine = .fetch :=
  ⟨by decide, ⟨_, rfl, by decide⟩, by decide, _, rfl, by decide⟩
/-- The stale `jr r2` completes; an `add` of register 32 faults; an unknown word runs nothing. -/
theorem witness_StepRunsTheDecodedInstruction :
    (warm.engine ≠ .halted ∧ ∃ icache, cacheLoad .fetch warm.icache warm.mem warm.pc.toNat = .ok (0x13000002, icache) ∧
      decode refOpc 0x13000002 = .known (.jr 0 0 2) ∧
      ∃ t, exec (.jr 0 0 2)
        { warm with ir := 0x13000002, pc := warm.pc + 1#32, icache := icache, engine := .executeMemWb } = .next t) ∧
    (decode refOpc 0x01200102 = .known (.add 32 1 2) ∧ ∀ u, exec (.add 32 1 2) u = .fault (.registerIndex .ra 32)) ∧
    decode refOpc 0x0D123456 = .unknown :=
  ⟨⟨by decide, _, rfl, by decide, _, rfl⟩, ⟨by decide, fun _ => rfl⟩, by decide⟩
theorem witness_UnknownOpcodeIsANoOp :
    (ready 0x0D123456 []).engine ≠ .halted ∧
    (∃ icache, cacheLoad .fetch (ready 0x0D123456 []).icache (ready 0x0D123456 []).mem
      (ready 0x0D123456 []).pc.toNat = .ok (0x0D123456, icache)) ∧
    ∀ m ∈ Mnemonic.all, refOpc.value m ≠ opcodeOf 0x0D123456 := ⟨by decide, ⟨_, rfl⟩, by decide⟩
/-- The last address of memory. -/
theorem witness_FetchAdvancesThePcWithoutWrapping :
    warm.Inv ∧ warm.pc.toNat = 65535 ∧ ∃ s', fetchStage warm = .ok s' := ⟨warm_inv, by decide, _, rfl⟩
/-- A cycle without a data access; a load of the last address, which misses, and one that hits; a store to the last
address. -/
theorem witness_EachCycleCountsOnceAndFetchesOnce :
    (warm.engine ≠ .halted ∧ ∃ t, stepWith refOpc warm = .next t ∧ decode refOpc t.ir = .known (.jr 0 0 2)) ∧
    ((ready 0x10020003 [(2, 65535)]).engine ≠ .halted ∧
      ∃ t, stepWith refOpc (ready 0x10020003 [(2, 65535)]) = .next t ∧ decode refOpc t.ir = .known (.load 2 0 3) ∧
        t.dcache.misses = 1) ∧
    ((placeFetchWord (warm.setReg 1 9) 0x10010003).engine ≠ .halted ∧
      ∃ t, stepWith refOpc (placeFetchWord (warm.setReg 1 9) 0x10010003) = .next t ∧
        decode refOpc t.ir = .known (.load 1 0 3) ∧ t.dcache.hits = 2) ∧
    (ready 0x11010002 [(1, 5), (2, 65535)]).engine ≠ .halted ∧
    ∃ t, stepWith refOpc (ready 0x11010002 [(1, 5), (2, 65535)]) = .next t ∧
      decode refOpc t.ir = .known (.store 1 0 2) ∧ t.mem.read 65535 = 5 :=
  ⟨⟨by decide, _, rfl, by decide⟩, ⟨by decide, _, rfl, by decide, by decide⟩,
    ⟨by decide, _, rfl, by decide, by decide⟩, by decide, _, rfl, by decide, by decide⟩
/-- Two steps from reset, the first a load constant of r0. -/
theorem witness_NoInstructionWritesRegisterZero :
    ∃ t, stepsWith refOpc 2 (ready 0x0E123400 [(0, 7)]) = some t ∧ t.reg 0 = 7 := ⟨_, rfl, by decide⟩
theorem witness_OnlyTheDestinationRegisterChanges :
    (∃ t, exec (.load 1 0 31) warm = .next t) ∧ destination (.load 1 0 31) ≠ some (BitVec.ofNat 8 (30 : Fin 32).val) ∧
    (∃ t, exec (.jal 5) warm = .next t) ∧ destination (.jal 5) ≠ some (BitVec.ofNat 8 (0 : Fin 32).val) :=
  ⟨⟨_, rfl⟩, by decide, ⟨_, rfl⟩, by decide⟩
theorem witness_OnlyAluInstructionsWriteTheFlags :
    (∃ t, exec (.dec 0 0 0) warm = .next t) ∧ aluOperation (.dec 0 0 0) = some (.dec, 0, 0, 0) ∧
    (∃ t, exec (.store 3 0 31) warm = .next t) ∧ aluOperation (.store 3 0 31) = none :=
  ⟨⟨_, rfl⟩, by decide, ⟨_, rfl⟩, by decide⟩
theorem witness_OnlyStoreWritesMemory :
    (∃ t, exec (.store 3 0 31) warm = .next t) ∧ (∃ t, exec (.load 1 0 4) warm = .next t) ∧
    (∃ t, exec (.add 1 2 4) warm = .next t) := ⟨⟨_, rfl⟩, ⟨_, rfl⟩, _, rfl⟩
theorem witness_OnlyControlTransfersMoveThePc :
    (∃ t, exec (.add 1 2 4) warm = .next t) ∧ transfersControl (.add 1 2 4) = false ∧ Instr.add 1 2 4 ≠ .halt :=
  ⟨⟨_, rfl⟩, by decide, by decide⟩
/-- Each place of the order RA, RB, RC, and d. -/
theorem witness_FirstBadRegisterFieldFaults :
    (Instr.add 255 32 32).firstBadField = some (.ra, 255) ∧ (Instr.add 31 32 32).firstBadField = some (.rb, 32) ∧
    (Instr.add 31 31 32).firstBadField = some (.rc, 32) ∧ (Instr.lclMsb 0 255).firstBadField = some (.d, 255) ∧
    (Instr.blt 31 32 255).firstBadField = some (.rb, 32) := by decide
/-- r2 holds the first address outside memory. -/
theorem witness_DataAccessOutsideMemoryFaults :
    (2#8).toNat = (2 : Fin 32) ∧ (0#8).toNat = (0 : Fin 32) ∧ warm.dcache.wf = true ∧ (warm.reg 2).toNat = 65536 := by
  decide
/-- A well-formed load that completes, and one that faults. -/
theorem witness_OnlyLoadAndStoreFaultInExecute :
    (Instr.load 1 0 31).wf = true ∧ (∃ t, exec (.load 1 0 31) warm = .next t) ∧
    (Instr.load 2 0 31).wf = true ∧ exec (.load 2 0 31) warm = .fault (.addressing .load 65536) :=
  ⟨by decide, ⟨_, rfl⟩, by decide, rfl⟩
theorem witness_FetchOutsideMemoryFaults :
    warm.engine ≠ .halted ∧ warm.icache.wf = true ∧ warm.pc.toNat = 65535 ∧
    { warm with pc := 65536 }.engine ≠ .halted ∧ { warm with pc := 65536 }.icache.wf = true ∧
    65536 ≤ { warm with pc := 65536 }.pc.toNat := by decide
theorem witness_TransferBeyondMemoryFaultsAtTheNextFetch :
    warm.Inv ∧ warm.engine ≠ .halted ∧
    (∃ icache, cacheLoad .fetch warm.icache warm.mem warm.pc.toNat = .ok (0x13000002, icache)) ∧
    decode refOpc 0x13000002 = .known (.jr 0 0 2) ∧ (0#8).toNat = (0 : Fin 32) ∧ (2#8).toNat = (2 : Fin 32) ∧
    (warm.reg 2).toNat = 65536 ∧
    ∃ t, stepWith refOpc warm = .next t ∧ t.engine ≠ .halted ∧ 65536 ≤ t.pc.toNat := by
  obtain ⟨t, h, -, he, hp⟩ := warm_next
  exact ⟨warm_inv, by decide, ⟨_, rfl⟩, by decide, by decide, by decide, by decide, t, h, he, hp⟩
/-- The same with j and jal, to 65536 and to the largest target. -/
theorem witness_TransferBeyondMemory_jumps :
    (placeFetchWord warm 0x16010000).Inv ∧ (placeFetchWord warm 0x16010000).engine ≠ .halted ∧
    (∃ icache, cacheLoad .fetch (placeFetchWord warm 0x16010000).icache warm.mem warm.pc.toNat = .ok (0x16010000, icache)) ∧
    decode refOpc 0x16010000 = .known (.j 65536) ∧ 65536 ≤ (65536#24).toNat ∧
    (∃ icache, cacheLoad .fetch (placeFetchWord warm 0x12FFFFFF).icache warm.mem warm.pc.toNat = .ok (0x12FFFFFF, icache)) ∧
    decode refOpc 0x12FFFFFF = .known (.jal 0xFFFFFF) ∧ 65536 ≤ (0xFFFFFF#24).toNat :=
  ⟨⟨by decide, by decide, by decide, warm_inv.dcache_coherent, .inl rfl⟩, by decide, ⟨_, rfl⟩, by decide, by decide,
    ⟨_, rfl⟩, by decide, by decide⟩
/-- CY6's DECODE fault, and MS5's in EXECUTE_MEM_WB. -/
theorem witness_FaultAfterFetchLeavesFetchsEffects :
    ((ready 0x01200102 []).engine ≠ .halted ∧ (∃ icache, cacheLoad .fetch (ready 0x01200102 []).icache
        (ready 0x01200102 []).mem (ready 0x01200102 []).pc.toNat = .ok (0x01200102, icache)) ∧
      stepWith refOpc (ready 0x01200102 []) = .fault (.registerIndex .ra 32)) ∧
    (∃ icache, cacheLoad .fetch (ready 0x10020003 [(2, 65536)]).icache (ready 0x10020003 [(2, 65536)]).mem
        (ready 0x10020003 [(2, 65536)]).pc.toNat = .ok (0x10020003, icache)) ∧
      stepWith refOpc (ready 0x10020003 [(2, 65536)]) = .fault (.addressing .load 65536) :=
  ⟨⟨by decide, ⟨_, rfl⟩, rfl⟩, ⟨_, rfl⟩, rfl⟩

end Sys2Proof.Tests
end

/-! The mask of 00_scope.md R7 as an integer. -/

namespace Sys2Proof.Proofs

/-- The masked word read as a number; `BitVec.ofInt` truncates by `Int.emod`, which is never negative. -/
theorem coe_toNat_mask32 (v : Int) : ((mask32 v).toNat : Int) = v % 2 ^ 32 := by
  have hnonneg : 0 ≤ v % 2 ^ 32 := Int.emod_nonneg v (by decide)
  have htoNat : (mask32 v).toNat = (v % 2 ^ 32).toNat := BitVec.toNat_ofInt v
  rw [htoNat, Int.toNat_of_nonneg hnonneg]

/-- Settles O1: the masked word's number is the residue, and `Int.emod` by a positive modulus lies in `[0, 2^32)`. -/
theorem maskIsValueModuloTwoToThe32 : Obligations.MaskIsValueModuloTwoToThe32 := fun v =>
  ⟨coe_toNat_mask32 v, Int.emod_nonneg v (by decide), Int.emod_lt_of_pos v (by decide)⟩

end Sys2Proof.Proofs

/-! What a next state keeps, field by field, over all the instructions: each lemma is one case split along the effects of
`exec_next_effect`, the effect that writes the field named and every other closed by the laws of the state. -/

namespace Sys2Proof.Machine

/-! ## The register file -/

/-- A field that does not spell `k` names another register. -/
theorem register_ne_of_field_ne {field : Byte} {c k : Fin 32} (hc : field.toNat = c)
    (h : some field ≠ some (BitVec.ofNat 8 k.val)) : k ≠ c := by
  rintro rfl
  exact h (by rw [← hc, BitVec.ofNat_toNat, BitVec.setWidth_eq])

/-- The write-back to the register `field` names keeps register 0 and every register that `field` does not spell. -/
theorem State.reg_writeBack_kept (s : State) {field : Byte} {c k : Fin 32} (v : Word) (hc : field.toNat = c)
    (hk : k = 0 ∨ some field ≠ some (BitVec.ofNat 8 k.val)) : (s.writeBack c v).reg k = s.reg k := by
  obtain rfl | hk := hk
  · exact State.reg_zero_writeBack s c v
  · exact State.reg_writeBack_other s c k v (register_ne_of_field_ne hc hk)

theorem destination_of_aluOperation {i : Instr} {op : AluOp} {ra rb rc : Byte}
    (h : aluOperation i = some (op, ra, rb, rc)) : destination i = some rc := by
  cases i <;> simp_all [aluOperation, destination]

/-- An effect keeps register 0 (R16) and every register that the table of R18 does not give as written. -/
theorem ExecEffect.reg_kept {s t : State} {i : Instr} {k : Fin 32} (h : ExecEffect s i t)
    (hk : k = 0 ∨ destination i ≠ some (BitVec.ofNat 8 k.val)) : t.reg k = s.reg k := by
  cases h with
  | alu a b c hi ha hb hc =>
    rw [destination_of_aluOperation hi] at hk
    exact State.reg_writeBack_kept { s with flags := _ } _ hc hk
  | lclMsb c hd | lclLsb c hd => exact State.reg_writeBack_kept s _ hd hk
  | load a b c ha hb hc hl => exact State.reg_writeBack_kept { s with dcache := _ } _ hc hk
  | jal =>
    have hne : k ≠ Config.linkReg := by
      obtain rfl | hk := hk
      · decide
      · exact register_ne_of_field_ne (field := 31#8) rfl hk
    exact State.reg_setReg_other s _ k s.pc hne
  | beq taken | bne taken | bgt taken | blt taken => exact branchEffect_reg k s taken _
  | store | j | jr | halt => rfl

/-- No step writes register 0, whatever the word it fetches (R16). -/
theorem stepWith_reg_zero {opc : OpcodeMap} {s t : State} (h : stepWith opc s = .next t) : t.reg 0 = s.reg 0 := by
  obtain ⟨-, rfl⟩ | ⟨-, w, icache, -, ⟨i, u, -, heffect, rfl⟩ | ⟨-, rfl⟩⟩ := stepWith_next_cases h
  · rfl
  · exact heffect.reg_kept (.inl rfl)
  · rfl

/-- What every step carries from its end back to its start, a run of any length carries too. -/
theorem stepsWith_rel {opc : OpcodeMap} {R : State → State → Prop} (refl : ∀ s, R s s)
    (head : ∀ s t u, stepWith opc s = .next t → R t u → R s u) {k : Nat} {s u : State}
    (h : stepsWith opc k s = some u) : R s u := by
  induction k generalizing s with
  | zero => cases h; exact refl _
  | succ k ih =>
    unfold stepsWith at h
    split at h
    · next t ht => exact head s t u ht (ih h)
    · cases h
    · cases h

/-! ## The other fields -/

theorem ExecEffect.flags_kept {s t : State} {i : Instr} (h : ExecEffect s i t) (hi : aluOperation i = none) :
    t.flags = s.flags := by
  cases h with
  | alu a b c ha => cases ha.symm.trans hi
  | _ => simp

theorem ExecEffect.mem_kept {s t : State} {i : Instr} (h : ExecEffect s i t) (hi : ∀ ra rb rc, i ≠ .store ra rb rc) :
    t.mem = s.mem := by
  cases h with
  | store => exact absurd rfl (hi _ _ _)
  | _ => simp

/-- A store changes at most the cell its RC addresses (R116, R118). -/
theorem ExecEffect.store_memoryKept {s t : State} {ra rb rc : Byte} (h : ExecEffect s (.store ra rb rc) t) :
    ∃ c : Fin 32, rc.toNat = c ∧ MemoryKept [effectiveAddress s c] s t := by
  cases h with
  | alu a b c hi => cases hi
  | store a b c ha hb hc hlt =>
    exact ⟨c, hc, fun k hk => Memory.read_write_other s.mem _ (by simpa using hk)⟩

theorem ExecEffect.dcache_kept {s t : State} {i : Instr} (h : ExecEffect s i t)
    (hi : ∀ ra rb rc, i ≠ .store ra rb rc ∧ i ≠ .load ra rb rc) : t.dcache = s.dcache := by
  cases h with
  | store => exact absurd rfl (hi _ _ _).1
  | load => exact absurd rfl (hi _ _ _).2
  | _ => simp

theorem ExecEffect.fetchStateKept {s t : State} {i : Instr} (h : ExecEffect s i t) : FetchStateKept s t := by
  cases h <;> simp [FetchStateKept]

theorem ExecEffect.pc_kept {s t : State} {i : Instr} (h : ExecEffect s i t) (hi : transfersControl i = false) :
    t.pc = s.pc := by
  cases h with
  | jal | j | jr | beq | bne | bgt | blt => cases hi
  | _ => simp

theorem ExecEffect.engine_kept {s t : State} {i : Instr} (h : ExecEffect s i t) (hi : i ≠ .halt) :
    t.engine = s.engine := by
  cases h with
  | halt => exact absurd rfl hi
  | _ => simp

/-! ## FETCH -/

/-- With a well-formed map a cache load succeeds only inside memory: a hit is of a listed address, a miss is read. -/
theorem cacheLoad_ok_lt {kind : AccessKind} {c c' : Cache} {m : Memory} {a : Nat} {v : Word} (hc : c.wf = true)
    (h : cacheLoad kind c m a = .ok (v, c')) : a < 65536 := by
  obtain ⟨hl, -⟩ | ⟨-, ha, -⟩ := cacheLoad_ok_cases h
  · exact Cache.lookup_lt c hc hl
  · exact ha

/-! ## Runs that differ in their flags alone

The outcome relation is pushed through each stage of the cycle; a stage that never looks at the flags meets it on its own
result. -/

theorem OutcomesAgreeButFlags.refl (r : Result) : OutcomesAgreeButFlags r r := by
  cases r <;> rfl

theorem OutcomesAgreeButFlags.next {s t : State} {f : Flags} (h : t = { s with flags := f }) :
    OutcomesAgreeButFlags (.next s) (.next t) := by
  subst h; rfl

theorem withRegister_agree {field : RegField} {value : Byte} {k k' : Fin 32 → Result}
    (h : ∀ i, OutcomesAgreeButFlags (k i) (k' i)) :
    OutcomesAgreeButFlags (withRegister field value k) (withRegister field value k') := by
  unfold withRegister
  split
  · exact h _
  · rfl

theorem withThreeRegisters_agree {ra rb rc : Byte} {k k' : Fin 32 → Fin 32 → Fin 32 → Result}
    (h : ∀ a b c, OutcomesAgreeButFlags (k a b c) (k' a b c)) :
    OutcomesAgreeButFlags (withThreeRegisters ra rb rc k) (withThreeRegisters ra rb rc k') :=
  withRegister_agree fun a => withRegister_agree fun b => withRegister_agree fun c => h a b c

theorem withTwoRegisters_agree {ra rb : Byte} {k k' : Fin 32 → Fin 32 → Result}
    (h : ∀ a b, OutcomesAgreeButFlags (k a b) (k' a b)) :
    OutcomesAgreeButFlags (withTwoRegisters ra rb k) (withTwoRegisters ra rb k') :=
  withRegister_agree fun a => withRegister_agree fun b => h a b

section
variable (s : State) (f : Flags)

theorem State.writeBack_withFlags (i : Fin 32) (v : Word) :
    { s with flags := f }.writeBack i v = { s.writeBack i v with flags := f } := by
  unfold State.writeBack; split <;> rfl

theorem branchEffect_withFlags (taken : Bool) (target : Byte) :
    branchEffect taken target { s with flags := f } = { branchEffect taken target s with flags := f } := by
  cases taken <;> rfl

/-- The ALU replaces all four flags (R108), so the old ones leave no trace. -/
theorem aluInstr_agree (op : AluOp) (ra rb rc : Byte) :
    OutcomesAgreeButFlags (aluInstr op ra rb rc s) (aluInstr op ra rb rc { s with flags := f }) :=
  withThreeRegisters_agree fun _ _ _ => OutcomesAgreeButFlags.refl _

theorem branchInstr_agree (cond : Word → Word → Bool) (ra rb target : Byte) :
    OutcomesAgreeButFlags (branchInstr cond ra rb target s) (branchInstr cond ra rb target { s with flags := f }) :=
  withTwoRegisters_agree fun _ _ => .next (branchEffect_withFlags s f _ target)

theorem loadConstant_agree (merge : Word → BitVec 16 → Word) (imm16 : BitVec 16) (d : Byte) :
    OutcomesAgreeButFlags (loadConstant merge imm16 d s) (loadConstant merge imm16 d { s with flags := f }) :=
  withRegister_agree fun i => .next (State.writeBack_withFlags s f i _)

theorem loadEffect_agree (a c : Fin 32) :
    OutcomesAgreeButFlags (loadEffect a c s) (loadEffect a c { s with flags := f }) := by
  have haddress : effectiveAddress { s with flags := f } a = effectiveAddress s a := rfl
  simp only [loadEffect, haddress]
  split
  · next v dcache _ => exact .next (State.writeBack_withFlags { s with dcache := dcache } f c v)
  · rfl

theorem storeEffect_agree (a c : Fin 32) :
    OutcomesAgreeButFlags (storeEffect a c s) (storeEffect a c { s with flags := f }) := by
  have haddress : effectiveAddress { s with flags := f } c = effectiveAddress s c := rfl
  have hvalue : State.reg { s with flags := f } a = s.reg a := rfl
  simp only [storeEffect, haddress, hvalue]
  split <;> rfl

theorem exec_agree (i : Instr) : OutcomesAgreeButFlags (exec i s) (exec i { s with flags := f }) := by
  cases i with
  | lclMsb imm16 d | lclLsb imm16 d => exact loadConstant_agree s f _ imm16 d
  | load ra rb rc => exact withThreeRegisters_agree fun a _ c => loadEffect_agree s f a c
  | store ra rb rc => exact withThreeRegisters_agree fun a _ c => storeEffect_agree s f a c
  | jr ra rb rc => exact withThreeRegisters_agree fun _ _ c => .next (s := s.jumpTo (s.reg c)) rfl
  | beq ra rb target => exact branchInstr_agree s f (fun a b => decide (a = b)) ra rb target
  | bne ra rb target => exact branchInstr_agree s f (fun a b => decide (a ≠ b)) ra rb target
  | bgt ra rb target | blt ra rb target => exact branchInstr_agree s f _ ra rb target
  | j | jal | halt => rfl
  | _ => exact aluInstr_agree s f _ _ _ _

end

theorem finishCycle_agree {r r' : Result} (h : OutcomesAgreeButFlags r r') :
    OutcomesAgreeButFlags (finishCycle r) (finishCycle r') := by
  cases r with
  | next s =>
    cases r' with
    | next t => exact congrArg State.completeCycle h
    | fault | refused => cases h
  | fault => cases r' <;> cases h; rfl
  | refused => cases r' <;> cases h; rfl

theorem executeStage_agree (d : Decoded) (s : State) (f : Flags) :
    OutcomesAgreeButFlags (executeStage d s) (executeStage d { s with flags := f }) := by
  cases d with
  | known i => exact exec_agree { s with engine := .executeMemWb } f i
  | unknown => rfl

/-- FETCH reads pc, memory and the icache alone. -/
theorem fetchStage_withFlags (s : State) (f : Flags) :
    fetchStage { s with flags := f } = (fetchStage s).map fun s' => { s' with flags := f } := by
  simp only [fetchStage]
  split <;> rfl

theorem runCycle_agree (opc : OpcodeMap) (s : State) (f : Flags) :
    OutcomesAgreeButFlags (runCycle opc s) (runCycle opc { s with flags := f }) := by
  unfold runCycle
  rw [fetchStage_withFlags s f]
  cases fetchStage s with
  | ok s' => exact finishCycle_agree (executeStage_agree _ s' f)
  | error g => rfl

end Sys2Proof.Machine

/-! The rules of 10_state.md. -/

namespace Sys2Proof.Proofs

open Sys2Proof.Machine

/-- Settles O8: every field of `State.reset` is the stated literal; a register reads it out of the replicated vector. -/
theorem resetLeavesTheStatedState : Obligations.ResetLeavesTheStatedState := by
  have hreg : ∀ i, State.reset.reg i = 0#32 := fun i => Vector.getElem_replicate i.isLt
  exact ⟨hreg, rfl, rfl, rfl, fun _ => rfl, fun _ => rfl, fun _ => rfl, rfl, rfl, rfl, rfl, rfl, rfl⟩

/-- Settles O9: memory and both caches list nothing, so their form and the dcache's agreement with memory are vacuous. -/
theorem resetMeetsTheInvariant : Obligations.ResetMeetsTheInvariant where
  mem_wf := rfl
  icache_wf := rfl
  dcache_wf := rfl
  dcache_coherent := fun _ _ h => nomatch h
  between_cycles := .inl rfl

/-- Settles O45: a fetched address is in memory, far below the word's range, so the increment is exact. -/
theorem fetchAdvancesThePcWithoutWrapping : Obligations.FetchAdvancesThePcWithoutWrapping := by
  intro s s' hinv hfetch
  obtain ⟨w, icache, hload, rfl⟩ := fetchStage_ok hfetch
  have hlt : s.pc.toNat < 65536 := cacheLoad_ok_lt hinv.icache_wf hload
  have hpc : (s.pc + 1#32).toNat = s.pc.toNat + 1 := by bv_omega
  exact ⟨Nat.le_of_lt_succ hlt, hpc, fun _ _ => rfl, rfl, rfl, rfl⟩

/-- Settles O47, by induction over the run on `stepWith_reg_zero`. -/
theorem noInstructionWritesRegisterZero : Obligations.NoInstructionWritesRegisterZero := fun opc _ _ _ h =>
  stepsWith_rel (opc := opc) (R := fun s t => t.reg 0 = s.reg 0) (fun _ => rfl)
    (fun _ _ _ hstep hrest => hrest.trans (stepWith_reg_zero hstep)) h

/-- Settles O48, by the inversion lemma of `exec` and `ExecEffect.reg_kept`. -/
theorem onlyTheDestinationRegisterChanges : Obligations.OnlyTheDestinationRegisterChanges := fun _ _ _ _ h hk =>
  (exec_next_effect h).reg_kept (.inr hk)

/-- Settles O49: the ALU family runs one template, whose flags are those of its operands; no other effect writes them. -/
theorem onlyAluInstructionsWriteTheFlags : Obligations.OnlyAluInstructionsWriteTheFlags := by
  intro i s t h
  refine ⟨(exec_next_effect h).flags_kept, fun op ra rb rc hi => ?_⟩
  rw [exec_alu hi, aluInstr] at h
  obtain ⟨a, b, c, ha, hb, -, h⟩ := withThreeRegisters_next h
  cases h
  exact ⟨a, b, ha, hb, aluEffect_flags op a b c s⟩

/-- Settles O50: a HALTED engine keeps either state as it is; otherwise `runCycle_agree` compares the two cycles. -/
theorem noInstructionReadsTheFlags : Obligations.NoInstructionReadsTheFlags := by
  intro opc s f
  by_cases hhalted : s.engine = .halted
  · rw [stepWith_halted opc hhalted, stepWith_halted opc (s := { s with flags := f }) hhalted]
    rfl
  · rw [stepWith_running opc hhalted, stepWith_running opc (s := { s with flags := f }) hhalted]
    exact runCycle_agree opc s f

/-- Settles O51: one frame lemma per clause, on the effect `exec` has. -/
theorem onlyStoreWritesMemory : Obligations.OnlyStoreWritesMemory := by
  intro i s t h
  have heffect := exec_next_effect h
  refine ⟨heffect.mem_kept, ?_, heffect.dcache_kept⟩
  rintro ra rb rc rfl
  exact heffect.store_memoryKept

/-- Settles O52: one frame lemma per clause, on the effect `exec` has. -/
theorem onlyControlTransfersMoveThePc : Obligations.OnlyControlTransfersMoveThePc := fun _ _ _ h =>
  have heffect := exec_next_effect h
  ⟨heffect.fetchStateKept, heffect.pc_kept, heffect.engine_kept⟩

end Sys2Proof.Proofs

/-! What the data and the instruction side of memory do in one cycle, said once: the rules of a cache load, the extent of
a sparse map, and `stepWith_completedCycle`, from which the rules of 20_memory.md follow. -/

namespace Sys2Proof.Machine

/-! ## Sparse maps as data -/

theorem Cells.mem_of_lookup {cells : CellList} {a : Nat} {v : Word} (h : Cells.lookup cells a = some v) :
    (a, v) ∈ cells := by
  induction cells with
  | nil => cases h
  | cons c rest ih =>
    obtain ⟨k, w⟩ := c
    simp only [Cells.lookup] at h
    split at h
    · next hk => cases hk; cases h; exact List.mem_cons_self
    · exact List.mem_cons_of_mem _ (ih h)

/-- A rising list lists no address before its first. -/
theorem Cells.head_le_of_lookup {lo k a : Nat} {w v : Word} {rest : CellList}
    (hrising : Cells.risingFrom lo ((k, w) :: rest) = true) (h : Cells.lookup ((k, w) :: rest) a = some v) : k ≤ a := by
  by_contra hlt
  have hhead : Cells.risingFrom k ((k, w) :: rest) = true := by
    simp only [Cells.risingFrom, Bool.and_eq_true] at hrising
    simp [Cells.risingFrom, hrising.2]
  cases (Cells.lookup_below _ hhead (Nat.lt_of_not_le hlt)).symm.trans h

/-- Rising lists that look up alike are the same list. -/
theorem Cells.eq_of_lookup_eq {l l' : CellList} {lo : Nat} (hl : Cells.risingFrom lo l = true)
    (hl' : Cells.risingFrom lo l' = true) (h : ∀ a, Cells.lookup l a = Cells.lookup l' a) : l = l' := by
  induction l generalizing l' lo with
  | nil =>
    cases l' with
    | nil => rfl
    | cons c' _ => simpa [Cells.lookup] using h c'.1
  | cons c rest ih =>
    cases l' with
    | nil => simpa [Cells.lookup] using h c.1
    | cons c' rest' =>
      obtain ⟨k, v⟩ := c
      obtain ⟨k', v'⟩ := c'
      have hself : Cells.lookup ((k, v) :: rest) k = some v := if_pos rfl
      have hself' : Cells.lookup ((k', v') :: rest') k' = some v' := if_pos rfl
      have hkey : k = k' := Nat.le_antisymm (Cells.head_le_of_lookup hl ((h k').trans hself'))
        (Cells.head_le_of_lookup hl' ((h k).symm.trans hself))
      subst hkey
      have hval : v = v' := Option.some.inj (hself.symm.trans ((h k).trans hself'))
      simp only [Cells.risingFrom, Bool.and_eq_true] at hl hl'
      have htail : rest = rest' := ih hl.2 hl'.2 fun a => by
        by_cases hk : k = a
        · rw [Cells.lookup_below rest hl.2 (by omega), Cells.lookup_below rest' hl'.2 (by omega)]
        · simpa [Cells.lookup, hk] using h a
      rw [hval, htail]

/-- A canonical memory lists a cell exactly where it reads other than 0. -/
theorem Memory.lookup_eq_of_wf {m : Memory} (h : m.wf = true) (a : Nat) :
    Cells.lookup m.cells a = if m.read a = 0#32 then none else some (m.read a) := by
  simp only [Memory.wf, Bool.and_eq_true, List.all_eq_true, decide_eq_true_eq] at h
  obtain ⟨-, hnonzero⟩ := h
  unfold Memory.read
  cases hl : Cells.lookup m.cells a with
  | none => rfl
  | some v => exact (if_neg (hnonzero _ (Cells.mem_of_lookup hl))).symm

theorem Memory.eq_of_read_eq {m n : Memory} (hm : m.wf = true) (hn : n.wf = true) (h : ∀ a, m.read a = n.read a) :
    m = n := by
  have hlookup (a : Nat) : Cells.lookup m.cells a = Cells.lookup n.cells a := by
    rw [Memory.lookup_eq_of_wf hm, Memory.lookup_eq_of_wf hn, h]
  simp only [Memory.wf, Cells.wf, Bool.and_eq_true] at hm hn
  exact congrArg Memory.mk (Cells.eq_of_lookup_eq hm.1.1 hn.1.1 hlookup)

/-! ## The rules of a cache access (R40, R41) -/

section
variable {kind : AccessKind} {c c' : Cache} {m : Memory} {a : Nat} {v : Word}

theorem cacheLoad_value (h : cacheLoad kind c m a = .ok (v, c')) : v = (c.lookup a).getD (m.read a) := by
  obtain ⟨hl, -⟩ | ⟨hl, -, hv, -⟩ := cacheLoad_ok_cases h
  · rw [hl]; rfl
  · rw [hl]; exact hv

theorem cacheLoad_lookup_self (h : cacheLoad kind c m a = .ok (v, c')) : c'.lookup a = some v := by
  obtain ⟨hl, rfl⟩ | ⟨-, -, -, rfl⟩ := cacheLoad_ok_cases h
  · exact hl
  · exact Cache.lookup_setEntry_self c a v

theorem cacheLoad_lookup_other {b : Nat} (h : cacheLoad kind c m a = .ok (v, c')) (hb : b ≠ a) :
    c'.lookup b = c.lookup b := by
  obtain ⟨-, rfl⟩ | ⟨-, -, -, rfl⟩ := cacheLoad_ok_cases h
  · rfl
  · exact Cache.lookup_setEntry_other c v hb

/-- A cache load counts one access, a hit or a miss (R44). -/
theorem cacheLoad_counts (h : cacheLoad kind c m a = .ok (v, c')) :
    c'.hits + c'.misses = c.hits + c.misses + 1 := by
  obtain ⟨-, rfl⟩ | ⟨-, -, -, rfl⟩ := cacheLoad_ok_cases h
  · exact Nat.add_right_comm c.hits 1 c.misses
  · rfl

theorem cacheLoad_keeps_cached {b : Nat} (h : cacheLoad kind c m a = .ok (v, c')) (hb : (c.lookup b).isSome = true) :
    (c'.lookup b).isSome = true := by
  obtain ⟨w, hw⟩ := Option.isSome_iff_exists.1 hb
  exact Option.isSome_iff_exists.2 ⟨w, cacheLoad_keeps_entries h hw⟩

theorem Cache.setEntry_keeps_cached {b : Nat} (hb : (c.lookup b).isSome = true) :
    ((c.setEntry a v).lookup b).isSome = true := by
  obtain rfl | hne := eq_or_ne b a
  · rw [Cache.lookup_setEntry_self]; rfl
  · rwa [Cache.lookup_setEntry_other c v hne]

end

/-! ## One completed cycle -/

/-- The one data access a cycle on the decoded word makes, from `s` to `t` (R116 to R118): load's through the data-side
cache, store's to memory and that cache, and none for any other word. -/
inductive DataAccess (s t : State) : Decoded → Prop where
  | load {ra rb rc : Byte} {v : Word} (a : Fin 32) (ha : ra.toNat = a)
      (hload : cacheLoad .load s.dcache s.mem (effectiveAddress s a) = .ok (v, t.dcache)) (hmem : t.mem = s.mem) :
      DataAccess s t (.known (.load ra rb rc))
  | store {ra rb rc : Byte} (a c : Fin 32) (ha : ra.toNat = a) (hc : rc.toNat = c)
      (hlt : effectiveAddress s c < 65536) (hmem : t.mem = s.mem.write (effectiveAddress s c) (s.reg a))
      (hdcache : t.dcache = s.dcache.setEntry (effectiveAddress s c) (s.reg a)) :
      DataAccess s t (.known (.store ra rb rc))
  | none {d : Decoded} (hd : ∀ ra rb rc, d ≠ .known (.load ra rb rc) ∧ d ≠ .known (.store ra rb rc))
      (hmem : t.mem = s.mem) (hdcache : t.dcache = s.dcache) : DataAccess s t d

/-- What a cycle that completes does to everything but the registers, the flags and pc. -/
structure CompletedCycle (opc : OpcodeMap) (s t : State) : Prop where
  fetch : cacheLoad .fetch s.icache s.mem s.pc.toNat = .ok (t.ir, t.icache)
  data : DataAccess s t (decode opc t.ir)
  cycles : t.cycles = s.cycles + 1
  engine : t.engine = .fetch ∨ t.engine = .halted

theorem ExecEffect.dataAccess {s t : State} {i : Instr} (h : ExecEffect s i t) : DataAccess s t (.known i) := by
  cases h with
  | load a b c ha hb hc hl => exact .load a ha (by simpa using hl) (State.writeBack_mem _ c _)
  | store a b c ha hb hc hlt => exact .store a c ha hc hlt rfl rfl
  | alu a b c hi =>
    exact .none (fun _ _ _ => ⟨(by rintro ⟨⟩; cases hi), (by rintro ⟨⟩; cases hi)⟩) (aluEffect_mem _ a b c s)
      (aluEffect_dcache _ a b c s)
  | _ => exact .none (by simp) (by simp) (by simp)

/-- FETCH before the access and the end of the cycle after it touch neither its registers nor the data side. -/
theorem DataAccess.of_fetched {s u : State} {w : Word} {icache : Cache} {d : Decoded}
    (h : DataAccess (fetched s w icache) u d) : DataAccess s u.completeCycle d := by
  cases h with
  | load a ha hload hmem => exact .load a ha hload hmem
  | store a c ha hc hlt hmem hdcache => exact .store a c ha hc hlt hmem hdcache
  | none hd hmem hdcache => exact .none hd hmem hdcache

/-- From a running engine, a step that completes is a completed cycle. -/
theorem stepWith_completedCycle {opc : OpcodeMap} {s t : State} (hrun : s.engine ≠ .halted)
    (h : stepWith opc s = .next t) : CompletedCycle opc s t := by
  obtain ⟨hhalted, -⟩ | ⟨-, w, icache, hl, ⟨i, u, hd, heffect, rfl⟩ | ⟨hd, rfl⟩⟩ := stepWith_next_cases h
  · exact absurd hhalted hrun
  · obtain ⟨hir, hicache, hcycles⟩ := heffect.fetchStateKept
    exact {
      fetch := by rw [State.completeCycle_ir, State.completeCycle_icache, hir, hicache]; exact hl
      data := by rw [State.completeCycle_ir, hir, hd]; exact heffect.dataAccess.of_fetched
      cycles := congrArg (· + 1) hcycles
      engine := nextEngine_cases u.engine }
  · exact {
      fetch := hl
      data := .none (by simp [hd]) rfl rfl
      cycles := rfl
      engine := .inl rfl }

/-! ## What the access is, by the word decoded -/

section
variable {s t : State} {ra rb rc : Byte}

theorem DataAccess.of_load (h : DataAccess s t (.known (.load ra rb rc))) :
    ∃ (a : Fin 32) (v : Word), ra.toNat = a ∧
      cacheLoad .load s.dcache s.mem (effectiveAddress s a) = .ok (v, t.dcache) ∧ t.mem = s.mem := by
  cases h with
  | load a ha hload hmem => exact ⟨a, _, ha, hload, hmem⟩
  | none hd => exact absurd rfl (hd _ _ _).1

theorem DataAccess.of_store (h : DataAccess s t (.known (.store ra rb rc))) :
    ∃ a c : Fin 32, ra.toNat = a ∧ rc.toNat = c ∧ t.mem = s.mem.write (effectiveAddress s c) (s.reg a) ∧
      t.dcache = s.dcache.setEntry (effectiveAddress s c) (s.reg a) := by
  cases h with
  | store a c ha hc hlt hmem hdcache => exact ⟨a, c, ha, hc, hmem, hdcache⟩
  | none hd => exact absurd rfl (hd _ _ _).2

theorem DataAccess.of_other {d : Decoded} (h : DataAccess s t d)
    (hd : ∀ ra rb rc, d ≠ .known (.load ra rb rc) ∧ d ≠ .known (.store ra rb rc)) :
    t.mem = s.mem ∧ t.dcache = s.dcache := by
  cases h with
  | load => exact absurd rfl (hd _ _ _).1
  | store => exact absurd rfl (hd _ _ _).2
  | none _ hmem hdcache => exact ⟨hmem, hdcache⟩

end

/-! ## What every step keeps of the two sides of memory -/

/-- No entry of the instruction-side cache is ever changed (R53). -/
theorem stepWith_keeps_icache_entries {opc : OpcodeMap} {s t : State} (h : stepWith opc s = .next t) {a : Nat} {v : Word}
    (ha : s.icache.lookup a = some v) : t.icache.lookup a = some v := by
  by_cases hhalted : s.engine = .halted
  · cases (stepWith_halted opc hhalted).symm.trans h
    exact ha
  · exact cacheLoad_keeps_entries (stepWith_completedCycle hhalted h).fetch ha

theorem stepsWith_keeps_icache_entries {opc : OpcodeMap} {k : Nat} {s t : State} (h : stepsWith opc k s = some t)
    {a : Nat} {v : Word} (ha : s.icache.lookup a = some v) : t.icache.lookup a = some v :=
  stepsWith_rel (opc := opc) (R := fun s t => s.icache.lookup a = some v → t.icache.lookup a = some v)
    (fun _ => id) (fun _ _ _ hstep hrest hs => hrest (stepWith_keeps_icache_entries hstep hs)) h ha

theorem DataAccess.keeps_cached {s t : State} {d : Decoded} (h : DataAccess s t d) {a : Nat}
    (ha : (s.dcache.lookup a).isSome = true) : (t.dcache.lookup a).isSome = true := by
  cases h with
  | load _ _ hload _ => exact cacheLoad_keeps_cached hload ha
  | store _ _ _ _ _ _ hdcache => rw [hdcache]; exact Cache.setEntry_keeps_cached ha
  | none _ _ hdcache => rwa [hdcache]

theorem stepWith_keeps_dcached {opc : OpcodeMap} {s t : State} (h : stepWith opc s = .next t) {a : Nat}
    (ha : (s.dcache.lookup a).isSome = true) : (t.dcache.lookup a).isSome = true := by
  by_cases hhalted : s.engine = .halted
  · cases (stepWith_halted opc hhalted).symm.trans h
    exact ha
  · exact (stepWith_completedCycle hhalted h).data.keeps_cached ha

theorem stepsWith_keeps_dcached {opc : OpcodeMap} {k : Nat} {s t : State} (h : stepsWith opc k s = some t) {a : Nat}
    (ha : (s.dcache.lookup a).isSome = true) : (t.dcache.lookup a).isSome = true :=
  stepsWith_rel (opc := opc) (R := fun s t => (s.dcache.lookup a).isSome = true → (t.dcache.lookup a).isSome = true)
    (fun _ => id) (fun _ _ _ hstep hrest hs => hrest (stepWith_keeps_dcached hstep hs)) h ha

/-! ## The invariant of the data side -/

/-- Every entry of the cache equals the memory cell (R55). -/
def Cache.CoherentWith (c : Cache) (m : Memory) : Prop := ∀ a v, c.lookup a = some v → m.read a = v

theorem Cache.CoherentWith.cacheLoad {kind : AccessKind} {c c' : Cache} {m : Memory} {a : Nat} {v : Word}
    (hc : c.CoherentWith m) (h : cacheLoad kind c m a = .ok (v, c')) : c'.CoherentWith m := by
  intro b w hb
  obtain rfl | hne := eq_or_ne b a
  · have hvw : v = w := Option.some.inj ((cacheLoad_lookup_self h).symm.trans hb)
    rw [← hvw, cacheLoad_value h]
    cases hl : c.lookup b with
    | none => rfl
    | some u => exact hc b u hl
  · exact hc b w ((cacheLoad_lookup_other h hne).symm.trans hb)

/-- A store puts the same word in the entry and in the cell (R41). -/
theorem Cache.CoherentWith.store {c : Cache} {m : Memory} (hc : c.CoherentWith m) (a : Nat) (v : Word) :
    (c.setEntry a v).CoherentWith (m.write a v) := by
  intro b w hb
  obtain rfl | hne := eq_or_ne b a
  · rw [Memory.read_write_self]
    exact Option.some.inj ((Cache.lookup_setEntry_self c b v).symm.trans hb)
  · rw [Memory.read_write_other m v hne]
    exact hc b w ((Cache.lookup_setEntry_other c v hne).symm.trans hb)

theorem DataAccess.keeps_mem_wf {s t : State} {d : Decoded} (h : DataAccess s t d) (hs : s.mem.wf = true) :
    t.mem.wf = true := by
  cases h with
  | load _ _ _ hmem | none _ hmem _ => rwa [hmem]
  | store _ _ _ _ hlt hmem _ => rw [hmem]; exact Memory.wf_write _ _ _ hlt hs

theorem DataAccess.keeps_dcache_wf {s t : State} {d : Decoded} (h : DataAccess s t d) (hs : s.dcache.wf = true) :
    t.dcache.wf = true := by
  cases h with
  | load _ _ hload _ => exact cacheLoad_keeps_wf hload hs
  | store _ _ _ _ hlt _ hdcache => rw [hdcache]; exact Cache.wf_setEntry _ _ _ hlt hs
  | none _ _ hdcache => rwa [hdcache]

theorem DataAccess.keeps_coherence {s t : State} {d : Decoded} (h : DataAccess s t d)
    (hs : s.dcache.CoherentWith s.mem) : t.dcache.CoherentWith t.mem := by
  cases h with
  | load _ _ hload hmem => rw [hmem]; exact hs.cacheLoad hload
  | store _ _ _ _ _ hmem hdcache => rw [hmem, hdcache]; exact hs.store _ _
  | none _ hmem hdcache => rwa [hmem, hdcache]

theorem CompletedCycle.keeps_inv {opc : OpcodeMap} {s t : State} (h : CompletedCycle opc s t) (hs : s.Inv) : t.Inv where
  mem_wf := h.data.keeps_mem_wf hs.mem_wf
  icache_wf := cacheLoad_keeps_wf h.fetch hs.icache_wf
  dcache_wf := h.data.keeps_dcache_wf hs.dcache_wf
  dcache_coherent := h.data.keeps_coherence hs.dcache_coherent
  between_cycles := h.engine

theorem stepWith_keeps_inv {opc : OpcodeMap} {s t : State} (hs : s.Inv) (h : stepWith opc s = .next t) : t.Inv := by
  by_cases hhalted : s.engine = .halted
  · cases (stepWith_halted opc hhalted).symm.trans h
    exact hs
  · exact (stepWith_completedCycle hhalted h).keeps_inv hs

end Sys2Proof.Machine

/-! The rules of 20_memory.md. -/

namespace Sys2Proof.Proofs

open Sys2Proof.Machine

/-- Settles O10, by `stepWith_keeps_inv`; the machine's own step is `stepWith` under REF_OPC. -/
theorem everyStepKeepsTheInvariant : Obligations.EveryStepKeepsTheInvariant :=
  ⟨fun _ _ _ => stepWith_keeps_inv, fun _ _ => stepWith_keeps_inv⟩

/-- Settles O18: the run keeps the entry, the fetch answers it, or memory's word where there is none, and leaves it. -/
theorem laterStoresNeverReachAFetchedAddress : Obligations.LaterStoresNeverReachAFetchedAddress := by
  intro opc k s t u hsteps hrun hstep
  have hfetch := (stepWith_completedCycle hrun hstep).fetch
  have hword := cacheLoad_value hfetch
  refine ⟨fun v hs => ?_, fun hnone => ?_, cacheLoad_lookup_self hfetch⟩
  · have hentry := stepsWith_keeps_icache_entries hsteps hs
    exact ⟨by rw [hword, hentry]; rfl, hentry⟩
  · rw [hword, hnone]; rfl

/-- Settles O14, by `Memory.eq_of_read_eq`. -/
theorem memoriesThatReadAlikeAreEqual : Obligations.MemoriesThatReadAlikeAreEqual := fun _ _ =>
  Memory.eq_of_read_eq

/-- Settles O15: each access succeeds exactly in range, and a write reads back in its own cell alone. -/
theorem mainMemoryLoadsAndStores : Obligations.MainMemoryLoadsAndStores := by
  intro kind m a v
  constructor
  · intro hlt
    exact ⟨memLoad_ok_iff.2 ⟨hlt, rfl⟩, m.write a v, memStore_ok_iff.2 ⟨hlt, rfl⟩, Memory.read_write_self m a v,
      fun _ => Memory.read_write_other m v⟩
  · intro hge
    exact ⟨memLoad_error_iff.2 ⟨hge, rfl⟩, memStore_error_iff.2 ⟨hge, rfl⟩⟩

/-- Settles O16: the hit, the miss and the fault of `cacheLoad`, and that a well-formed map lists addresses of memory
alone. -/
theorem cacheLoadHitsMissesAndFaults : Obligations.CacheLoadHitsMissesAndFaults := by
  intro kind c m a
  refine ⟨fun v hv => ⟨_, cacheLoad_hit hv, rfl, rfl, rfl⟩, fun hnone hlt => ?_,
    fun hnone hge => cacheLoad_error_iff.2 ⟨hnone, hge, rfl⟩, fun hwf hge => ?_⟩
  · have hload := cacheLoad_miss (kind := kind) (m := m) hnone hlt
    exact ⟨_, hload, cacheLoad_lookup_self hload, fun _ => cacheLoad_lookup_other hload, rfl, rfl⟩
  · exact (cacheLoad_error_iff.1 (cacheLoad_error_of_wf (kind := kind) (m := m) hwf hge)).1

/-- Settles O17: no step changes an icache entry, and no step removes a dcache entry. -/
theorem cachedAddressesStayCached : Obligations.CachedAddressesStayCached := by
  refine fun opc k s t h a => ⟨fun ha => ?_, stepsWith_keeps_dcached h⟩
  obtain ⟨v, hv⟩ := Option.isSome_iff_exists.1 ha
  exact Option.isSome_iff_exists.2 ⟨v, stepsWith_keeps_icache_entries h hv⟩

/-- Settles O46: the completed cycle's fetch counts one icache access, and the word it latched selects the one case of
`DataAccess` there is. -/
theorem eachCycleCountsOnceAndFetchesOnce : Obligations.EachCycleCountsOnceAndFetchesOnce := by
  intro opc s t hrun hstep
  have hcycle := stepWith_completedCycle hrun hstep
  refine ⟨hcycle.cycles, cacheLoad_counts hcycle.fetch, fun ra rb rc hd => ?_, fun ra rb rc hd => ?_, fun hother => ?_⟩
  · obtain ⟨a, v, ha, hload, hmem⟩ := DataAccess.of_load (hd ▸ hcycle.data)
    have hentry := cacheLoad_lookup_self hload
    rw [cacheLoad_value hload] at hentry
    exact ⟨a, ha, cacheLoad_counts hload, hmem, hentry, fun _ => cacheLoad_lookup_other hload⟩
  · obtain ⟨a, c, ha, hc, hmem, hdcache⟩ := DataAccess.of_store (hd ▸ hcycle.data)
    have hkept : MemoryKept [effectiveAddress s c] s t := fun k hk => by
      rw [hmem]
      exact Memory.read_write_other s.mem _ (by simpa using hk)
    refine ⟨a, c, ha, hc, ?_⟩
    rw [hmem, hdcache]
    exact ⟨rfl, rfl, Memory.read_write_self .., hkept, Cache.lookup_setEntry_self ..,
      fun _ => Cache.lookup_setEntry_other s.dcache _⟩
  · exact hcycle.data.of_other hother

end Sys2Proof.Proofs

/-! The decoder and the encoder as inverses, by layout: a word is the weighted sum of its views, so each layout's
encoder writes that sum; and the fields of one shape never overlap, so an operand list's placement reads back field
by field. -/

namespace Sys2Proof

/-! ## The views as numbers -/

section
variable (w : Word)

theorem opcodeOf_toNat : (opcodeOf w).toNat = w.toNat / 2 ^ 24 := by
  have hw : w.toNat < 2 ^ 32 := w.isLt
  rw [opcodeOf, BitVec.extractLsb'_toNat, Nat.shiftRight_eq_div_pow]
  omega

theorem raOf_toNat : (raOf w).toNat = w.toNat / 2 ^ 16 % 2 ^ 8 := OperandField.read_eq .ra w

theorem rbOf_toNat : (rbOf w).toNat = w.toNat / 2 ^ 8 % 2 ^ 8 := OperandField.read_eq .rb w

theorem rcOf_toNat : (rcOf w).toNat = w.toNat % 2 ^ 8 :=
  (OperandField.read_eq .rc w).trans (congrArg (· % 2 ^ 8) (Nat.div_one _))

theorem immediate16Of_toNat : (immediate16Of w).toNat = w.toNat / 2 ^ 8 % 2 ^ 16 := OperandField.read_eq .imm16 w

theorem address24Of_toNat : (address24Of w).toNat = w.toNat % 2 ^ 24 :=
  (OperandField.read_eq .addr24 w).trans (congrArg (· % 2 ^ 24) (Nat.div_one _))

/-- A byte is a word's opcode exactly where it is the word's top byte as a number. -/
theorem eq_opcodeOf_iff {b : Byte} : b = opcodeOf w ↔ b.toNat = w.toNat / 2 ^ 24 := by
  rw [← opcodeOf_toNat, BitVec.toNat_inj]

end

/-! ## R68's sums: an assembled word's views are the fields it was assembled from -/

theorem encodeR_toNat (op ra rb rc : Byte) :
    (encodeR op ra rb rc).toNat = op.toNat * 2 ^ 24 + (ra.toNat * 2 ^ 16 + rb.toNat * 2 ^ 8 + rc.toNat) := by
  have hop := opcodeOf_toNat (encodeR op ra rb rc)
  have hra := raOf_toNat (encodeR op ra rb rc)
  have hrb := rbOf_toNat (encodeR op ra rb rc)
  have hrc := rcOf_toNat (encodeR op ra rb rc)
  simp only [opcodeOf_encodeR, raOf_encodeR, rbOf_encodeR, rcOf_encodeR] at hop hra hrb hrc
  omega

theorem encodeI_toNat (op : Byte) (imm16 : BitVec 16) (d : Byte) :
    (encodeI op imm16 d).toNat = op.toNat * 2 ^ 24 + (imm16.toNat * 2 ^ 8 + d.toNat) := by
  have hop := opcodeOf_toNat (encodeI op imm16 d)
  have himm := immediate16Of_toNat (encodeI op imm16 d)
  have hd := rcOf_toNat (encodeI op imm16 d)
  simp only [opcodeOf_encodeI, immediate16Of_encodeI, rcOf_encodeI] at hop himm hd
  omega

theorem encodeJ_toNat (op : Byte) (addr24 : BitVec 24) :
    (encodeJ op addr24).toNat = op.toNat * 2 ^ 24 + addr24.toNat := by
  have hop := opcodeOf_toNat (encodeJ op addr24)
  have haddr := address24Of_toNat (encodeJ op addr24)
  simp only [opcodeOf_encodeJ, address24Of_encodeJ] at hop haddr
  omega

/-! ## An instruction's word -/

theorem opcodeOf_encode (opc : OpcodeMap) (i : Instr) : opcodeOf (encode opc i) = opc.value i.mnemonic := by
  cases i with
  | lclMsb imm16 d | lclLsb imm16 d => exact opcodeOf_encodeI _ imm16 d
  | j addr24 | jal addr24 => exact opcodeOf_encodeJ _ addr24
  | halt => exact opcodeOf_encodeJ _ 0#24
  | _ ra rb rc => exact opcodeOf_encodeR _ ra rb rc

/-- The views an instruction's mnemonic selects are the fields its word was assembled from. -/
theorem instrOf_encode (opc : OpcodeMap) (i : Instr) : instrOf i.mnemonic (encode opc i) = i := by
  cases i <;> simp [instrOf, encode, Instr.mnemonic]

theorem encode_toNat (opc : OpcodeMap) (i : Instr) :
    (encode opc i).toNat = (opc.value i.mnemonic).toNat * 2 ^ 24 + Machine.operandBits i := by
  cases i with
  | lclMsb imm16 d | lclLsb imm16 d => exact encodeI_toNat _ imm16 d
  | j addr24 | jal addr24 => exact encodeJ_toNat _ addr24
  | halt => exact encodeJ_toNat _ 0#24
  | _ ra rb rc => exact encodeR_toNat _ ra rb rc

theorem decode_encode (opc : OpcodeMap) (i : Instr) : decode opc (encode opc i) = .known i :=
  (decode_eq_known opc).2 ⟨i.mnemonic, (opcodeOf_encode opc i).symm, instrOf_encode opc i⟩

theorem encode_halt (opc : OpcodeMap) : encode opc .halt = 0xFF000000#32 := by
  rw [encode, opc.halt_value]
  rfl

/-- Every mnemonic but halt selects views that cover the word, so its instruction's word is the word read. -/
theorem encode_instrOf {opc : OpcodeMap} {m : Mnemonic} {w : Word} (hop : opc.value m = opcodeOf w) (hm : m ≠ .halt) :
    encode opc (instrOf m w) = w := by
  cases m with
  | halt => exact absurd rfl hm
  | lclMsb | lclLsb => simp only [instrOf, encode, hop, encodeI_views]
  | j | jal => simp only [instrOf, encode, hop, encodeJ_views]
  | _ => simp only [instrOf, encode, hop, encodeR_views]

theorem instrOf_eq_halt {m : Mnemonic} {w : Word} : instrOf m w = .halt ↔ m = .halt := by
  constructor
  · intro h
    rw [← instrOf_mnemonic m w, h, Instr.mnemonic]
  · rintro rfl
    rfl

theorem OpcodeMap.value_eq_halt (opc : OpcodeMap) {m : Mnemonic} : opc.value m = 0xFF#8 ↔ m = .halt := by
  rw [← opc.halt_value]
  exact ⟨opc.injective m .halt, congrArg opc.value⟩

/-! ## The placement of an operand list

R68's placement is a sum, so its reading needs that no field carries into another: the fields of one shape do not
overlap, and a mnemonic names each of its shape's fields at most once. -/

/-- The number a field holds in bits 23 to 0. -/
def OperandField.slice (f : OperandField) (bits : Nat) : Nat := bits / 2 ^ f.position % 2 ^ f.width

/-- A field's view of an assembled word is its slice of the bits below the opcode. -/
theorem OperandField.read_encodeJ_ofNat (f : OperandField) (op : Byte) (bits : Nat) :
    f.read (encodeJ op (BitVec.ofNat 24 bits)) = f.slice bits := by
  rw [f.read_eq, encodeJ_toNat, BitVec.toNat_ofNat, OperandField.slice]
  cases f <;> simp only [OperandField.position, OperandField.width] <;> omega

/-- Two fields that share no bit of the word. -/
abbrev OperandField.Apart (f g : OperandField) : Prop :=
  f.position + f.width ≤ g.position ∨ g.position + g.width ≤ f.position

theorem Shape.fields_apart (shape : Shape) : ∀ f ∈ shape.fields, ∀ g ∈ shape.fields, f ≠ g → f.Apart g := by
  cases shape <;> decide

theorem Mnemonic.operandFields_subset (m : Mnemonic) : m.operandFields ⊆ m.shape.fields := by
  cases m <;> decide

theorem Mnemonic.operandFields_nodup (m : Mnemonic) : m.operandFields.Nodup := by
  cases m <;> decide

/-- An operand added into its empty field reads back. -/
theorem OperandField.slice_add_self {f : OperandField} {v bits : Nat} (hv : v < 2 ^ f.width)
    (hempty : f.slice bits = 0) : f.slice (v * 2 ^ f.position + bits) = v := by
  rw [OperandField.slice] at hempty ⊢
  rw [Nat.mul_comm, Nat.mul_add_div (Nat.two_pow_pos _), Nat.add_mod, hempty, Nat.add_zero, Nat.mod_mod,
    Nat.mod_eq_of_lt hv]

/-- An operand added into its empty field does not reach a field apart from it: a higher one since nothing carries, a
lower one since the operand stands above it. -/
theorem OperandField.slice_add_of_apart {f g : OperandField} {v bits : Nat} (hv : v < 2 ^ f.width)
    (hempty : f.slice bits = 0) (hapart : f.Apart g) : g.slice (v * 2 ^ f.position + bits) = g.slice bits := by
  rw [OperandField.slice] at hempty
  rw [OperandField.slice, OperandField.slice, Nat.mul_comm]
  obtain hbelow | habove := hapart
  · obtain ⟨k, hk⟩ := Nat.exists_eq_add_of_le hbelow
    have hcarry : (v + bits / 2 ^ f.position) / 2 ^ f.width = bits / 2 ^ f.position / 2 ^ f.width := by
      rw [Nat.add_div_of_dvd_left (Nat.dvd_of_mod_eq_zero hempty), Nat.div_eq_of_lt hv, Nat.zero_add]
    have hshift (n : Nat) : n / 2 ^ g.position = n / 2 ^ f.position / 2 ^ f.width / 2 ^ k := by
      rw [hk, Nat.pow_add, Nat.pow_add, Nat.div_div_eq_div_mul, Nat.div_div_eq_div_mul, Nat.mul_assoc]
    rw [hshift, hshift, Nat.mul_add_div (Nat.two_pow_pos _), hcarry]
  · obtain ⟨k, hk⟩ := Nat.exists_eq_add_of_le habove
    rw [hk, Nat.pow_add, Nat.pow_add, Nat.mul_assoc, Nat.mul_assoc, Nat.mul_add_div (Nat.two_pow_pos _),
      Nat.mul_add_mod]

theorem placeOperands_cons {f : OperandField} {fields : List OperandField} {operands : List Nat} {bits : Nat}
    (h : placeOperands (f :: fields) operands = some bits) :
    ∃ v rest bits', operands = v :: rest ∧ v < 2 ^ f.width ∧ placeOperands fields rest = some bits' ∧
      bits = v * 2 ^ f.position + bits' := by
  cases operands with
  | nil => cases h
  | cons v rest =>
    rw [placeOperands] at h
    split at h
    · next hv =>
      obtain ⟨bits', hrest, hbits⟩ := Option.map_eq_some_iff.1 h
      exact ⟨v, rest, bits', rfl, hv, hrest, hbits.symm⟩
    · cases h

/-- A field of the shape that takes no operand stays 0. -/
theorem placeOperands_slice_eq_zero {shape : Shape} {fields : List OperandField} {operands : List Nat} {bits : Nat}
    (h : placeOperands fields operands = some bits) (hsub : fields ⊆ shape.fields) (hnodup : fields.Nodup)
    {g : OperandField} (hg : g ∈ shape.fields) (hunused : g ∉ fields) : g.slice bits = 0 := by
  induction fields generalizing operands bits g with
  | nil =>
    cases operands <;> cases h
    simp [OperandField.slice]
  | cons f fields ih =>
    obtain ⟨v, rest, bits', rfl, hv, hrest, rfl⟩ := placeOperands_cons h
    obtain ⟨hf, hsub⟩ := List.cons_subset.1 hsub
    obtain ⟨hfresh, hnodup⟩ := List.nodup_cons.1 hnodup
    obtain ⟨hne, hunused⟩ := not_or.1 (mt List.mem_cons.2 hunused)
    have hempty : f.slice bits' = 0 := ih hrest hsub hnodup hf hfresh
    rw [OperandField.slice_add_of_apart hv hempty (shape.fields_apart f hf g hg (Ne.symm hne))]
    exact ih hrest hsub hnodup hg hunused

/-- The fields of a placed operand list read back as the list. -/
theorem placeOperands_slice {shape : Shape} {fields : List OperandField} {operands : List Nat} {bits : Nat}
    (h : placeOperands fields operands = some bits) (hsub : fields ⊆ shape.fields) (hnodup : fields.Nodup) :
    operands = fields.map fun f => f.slice bits := by
  induction fields generalizing operands bits with
  | nil => cases operands <;> cases h; rfl
  | cons f fields ih =>
    obtain ⟨v, rest, bits', rfl, hv, hrest, rfl⟩ := placeOperands_cons h
    obtain ⟨hf, hsub⟩ := List.cons_subset.1 hsub
    obtain ⟨hfresh, hnodup⟩ := List.nodup_cons.1 hnodup
    have hempty : f.slice bits' = 0 := placeOperands_slice_eq_zero hrest hsub hnodup hf hfresh
    have hothers : ∀ g ∈ fields, g.slice bits' = g.slice (v * 2 ^ f.position + bits') := fun g hg =>
      (OperandField.slice_add_of_apart hv hempty
        (shape.fields_apart f hf g (hsub hg) (ne_of_mem_of_not_mem hg hfresh).symm)).symm
    rw [List.map_cons, OperandField.slice_add_self hv hempty, ← List.map_congr_left hothers, ← ih hrest hsub hnodup]

section
variable {opc : OpcodeMap} {m : Mnemonic} {operands : List Nat} {w : Word} (h : encodeOperands opc m operands = some w)
include h

/-- The encoded word is the one of the instruction it decodes to: for halt since its operand list is empty. -/
theorem encode_instrOf_encodeOperands : encode opc (instrOf m w) = w := by
  obtain ⟨bits, hplace, rfl⟩ := encodeOperands_eq_some.1 h
  by_cases hm : m = .halt
  · subst hm
    cases operands <;> cases hplace
    rfl
  · exact encode_instrOf (opcodeOf_encodeJ _ _).symm hm

/-- Every operand stands in its field of the encoded word. -/
theorem encodeOperands_read : List.Forall₂ (fun f v => f.read w = v) m.operandFields operands := by
  obtain ⟨bits, hplace, rfl⟩ := encodeOperands_eq_some.1 h
  rw [placeOperands_slice hplace m.operandFields_subset m.operandFields_nodup, List.forall₂_map_right_iff,
    List.forall₂_same]
  exact fun f _ => f.read_encodeJ_ofNat _ bits

/-- The encoder zero-fills the fields of the shape that the mnemonic does not use (R66). -/
theorem encodeOperands_read_unused {f : OperandField} (hf : f ∈ m.shape.fields) (hunused : f ∉ m.operandFields) :
    f.read w = 0 := by
  obtain ⟨bits, hplace, rfl⟩ := encodeOperands_eq_some.1 h
  rw [f.read_encodeJ_ofNat]
  exact placeOperands_slice_eq_zero hplace m.operandFields_subset m.operandFields_nodup hf hunused

end

/-- The encoder answers exactly where each field has its operand and the operand fits it. -/
theorem encodeOperands_isSome_iff {opc : OpcodeMap} {m : Mnemonic} {operands : List Nat} :
    (encodeOperands opc m operands).isSome = true ↔
      List.Forall₂ (fun f v => v < 2 ^ f.width) m.operandFields operands := by
  rw [encodeOperands, Option.isSome_map, placeOperands_isSome_iff]

/-- The record shows the word as fetched, whether its opcode is known or not (R83). -/
@[simp] theorem Machine.decodedRecord_rawBits (opc : OpcodeMap) (a w : Word) :
    (Machine.decodedRecord opc a w).rawBits = w := by
  rw [Machine.decodedRecord]
  split <;> rfl

end Sys2Proof

/-! The rules of 30_encoding.md. -/

namespace Sys2Proof.Proofs

open Sys2Proof.Machine

/-- Settles O3: by layout, an assembled word's views are its fields, and its number is their weighted sum. -/
theorem decodingAnEncodedInstructionGivesItBack : Obligations.DecodingAnEncodedInstructionGivesItBack := fun opc =>
  ⟨decode_encode opc, encode_toNat opc, encode_halt opc⟩

/-- Settles O2: the views as numbers; the overlaps are arithmetic on them. -/
theorem fiveViewsOfAWord : Obligations.FiveViewsOfAWord := by
  intro w
  have hra := raOf_toNat w
  have hrc := rcOf_toNat w
  have himm := immediate16Of_toNat w
  have haddr := address24Of_toNat w
  have himm_ra : (immediate16Of w).toNat / 2 ^ 8 = (raOf w).toNat := by omega
  have haddr_rc : (address24Of w).toNat % 2 ^ 8 = (rcOf w).toNat := by omega
  exact ⟨opcodeOf_toNat w, hra, rbOf_toNat w, hrc, himm, haddr, himm_ra, haddr_rc,
    fun opc a => decodedRecord_rawBits opc a w⟩

/-- Settles O4: the mnemonic decoded is not halt, so the views it selects cover the word. -/
theorem encodingADecodedWordGivesItBack : Obligations.EncodingADecodedWordGivesItBack := by
  intro opc w i h hi
  obtain ⟨m, hop, rfl⟩ := (decode_eq_known opc).1 h
  exact encode_instrOf hop fun hm => hi (instrOf_eq_halt.2 hm)

/-- Settles O5: the decoder looks the opcode byte up in the map, which is injective. -/
theorem opcodeByteSelectsTheMnemonic : Obligations.OpcodeByteSelectsTheMnemonic := by
  intro opc w
  refine ⟨fun m hm => ?_, ?_, fun m => opc.value_eq_halt⟩
  · exact ⟨instrOf m w, (decode_eq_known opc).2 ⟨m, (eq_opcodeOf_iff w).2 hm, rfl⟩, instrOf_mnemonic m w⟩
  · simp only [decode_eq_unknown, ne_eq, eq_opcodeOf_iff]

/-- Settles O6: only halt's mnemonic reads as halt, and 0xFF is its byte under every map. -/
theorem haltIsItsOpcodeByteAlone : Obligations.HaltIsItsOpcodeByteAlone := by
  intro opc w
  calc decode opc w = .known .halt
    _ ↔ opc.value .halt = opcodeOf w := by simp only [decode_eq_known, instrOf_eq_halt, exists_eq_right]
    _ ↔ 255 = w.toNat / 2 ^ 24 := by rw [eq_opcodeOf_iff, opc.halt_value]; rfl
    _ ↔ w.toNat / 2 ^ 24 = 255 := eq_comm

/-- Settles O60: a list that fits is placed, and the word's fields are read back by `placeOperands_slice`. -/
theorem encodingAnOperandListZeroFills : Obligations.EncodingAnOperandListZeroFills := by
  intro opc m operands
  constructor
  · intro hfits
    obtain ⟨w, hw⟩ := Option.isSome_iff_exists.1 (encodeOperands_isSome_iff (opc := opc).2 hfits)
    exact ⟨w, instrOf m w, hw, decode_encodeOperands hw, instrOf_mnemonic m w, encode_instrOf_encodeOperands hw,
      encodeOperands_read hw, fun f => encodeOperands_read_unused hw⟩
  · intro hunfit
    exact Option.not_isSome_iff_eq_none.1 fun hsome => hunfit (encodeOperands_isSome_iff.1 hsome)

/-- Settles O7: each word is its instruction's encoding; halt's other bits are free, and no mnemonic has 0x0D. -/
theorem referenceWordsDecode : Obligations.ReferenceWordsDecode := by
  have h := decode_encode refOpc
  exact ⟨h (.add 1 2 3), h (.sub 30 29 31), h (.lclLsb 0xBEEF 1), h (.lclMsb 0x8001 7), h (.store 1 0 2),
    h (.load 2 0 3), h (.beq 1 2 10), h (.jal 0x100), h (.j 0xFFFFFF), (haltIsItsOpcodeByteAlone refOpc _).2 rfl,
    (decode_eq_unknown refOpc).2 fun m => by cases m <;> decide⟩

end Sys2Proof.Proofs

/-! The cycle stage by stage: DECODE's register check as a search over the fields in order, why an instruction or a step
can fault, and what a step is once its fetch is known. -/

namespace Sys2Proof.Machine

/-! ## DECODE's register check (R77) -/

/-- The first of a list of fields whose value names no register: `Instr.firstBadField` is this of the instruction's
`registerFields`. -/
abbrev firstBad (fields : List (RegField × Byte)) : Option (RegField × Byte) := fields.find? fun f => !validIndex f.2

theorem firstBad_eq_none_iff {fields : List (RegField × Byte)} :
    firstBad fields = none ↔ (fields.all fun f => validIndex f.2) = true := by
  simp [List.find?_eq_none]

section
variable {field : RegField} {value : Byte} {fields : List (RegField × Byte)}

theorem firstBad_cons_valid {i : Fin 32} (h : value.toNat = i) :
    firstBad ((field, value) :: fields) = firstBad fields := by
  simp [firstBad, validIndex, h]

theorem firstBad_cons_invalid (h : 32 ≤ value.toNat) :
    firstBad ((field, value) :: fields) = some (field, value) := by
  simp [firstBad, validIndex, h]

theorem firstBad_cons_eq_none (h : firstBad ((field, value) :: fields) = none) :
    (∃ i : Fin 32, value.toNat = i) ∧ firstBad fields = none := by
  by_cases hlt : value.toNat < 32
  · have hvalid : value.toNat = (⟨value.toNat, hlt⟩ : Fin 32) := rfl
    exact ⟨⟨_, hvalid⟩, (firstBad_cons_valid hvalid).symm.trans h⟩
  · cases (firstBad_cons_invalid (Nat.le_of_not_lt hlt)).symm.trans h

/-- Where the continuation of a check raises the fault of the first bad field after it, the check raises the fault of the
first bad field of all. -/
theorem withRegister_firstBad {bad : RegField × Byte} {k : Fin 32 → Result}
    (h : firstBad ((field, value) :: fields) = some bad)
    (hk : ∀ i, firstBad fields = some bad → k i = .fault (.registerIndex bad.1 bad.2)) :
    withRegister field value k = .fault (.registerIndex bad.1 bad.2) := by
  obtain ⟨hge, hcheck⟩ | ⟨i, hi, hcheck⟩ := withRegister_cases field value k
  · cases (firstBad_cons_invalid hge).symm.trans h
    exact hcheck
  · exact hcheck.trans (hk i ((firstBad_cons_valid hi).symm.trans h))

end

section
variable {ra rb rc : Byte}

theorem withThreeRegisters_firstBad {bad : RegField × Byte} {k : Fin 32 → Fin 32 → Fin 32 → Result}
    (h : firstBad [(.ra, ra), (.rb, rb), (.rc, rc)] = some bad) :
    withThreeRegisters ra rb rc k = .fault (.registerIndex bad.1 bad.2) :=
  withRegister_firstBad h fun _ h => withRegister_firstBad h fun _ h => withRegister_firstBad h fun _ h => nomatch h

theorem withTwoRegisters_firstBad {bad : RegField × Byte} {k : Fin 32 → Fin 32 → Result}
    (h : firstBad [(.ra, ra), (.rb, rb)] = some bad) :
    withTwoRegisters ra rb k = .fault (.registerIndex bad.1 bad.2) :=
  withRegister_firstBad h fun _ h => withRegister_firstBad h fun _ h => nomatch h

theorem exists_threeRegisters (h : firstBad [(.ra, ra), (.rb, rb), (.rc, rc)] = none) :
    ∃ a b c : Fin 32, ra.toNat = a ∧ rb.toNat = b ∧ rc.toNat = c := by
  obtain ⟨⟨a, ha⟩, h⟩ := firstBad_cons_eq_none h
  obtain ⟨⟨b, hb⟩, h⟩ := firstBad_cons_eq_none h
  obtain ⟨⟨c, hc⟩, -⟩ := firstBad_cons_eq_none h
  exact ⟨a, b, c, ha, hb, hc⟩

theorem exists_twoRegisters (h : firstBad [(.ra, ra), (.rb, rb)] = none) :
    ∃ a b : Fin 32, ra.toNat = a ∧ rb.toNat = b := by
  obtain ⟨⟨a, ha⟩, h⟩ := firstBad_cons_eq_none h
  obtain ⟨⟨b, hb⟩, -⟩ := firstBad_cons_eq_none h
  exact ⟨a, b, ha, hb⟩

end

/-! ## Why an instruction faults -/

/-- Every meaning checks the fields of `registerFields`, in their order, before it looks at the state. -/
theorem exec_firstBadField {i : Instr} {bad : RegField × Byte} (h : i.firstBadField = some bad) (s : State) :
    exec i s = .fault (.registerIndex bad.1 bad.2) := by
  cases i with
  | beq | bne | bgt | blt =>
    simp only [exec, execBeq, execBne, execBgt, execBlt, branchInstr]
    exact withTwoRegisters_firstBad h
  | lclMsb | lclLsb =>
    simp only [exec, execLclMsb, execLclLsb, loadConstant]
    exact withRegister_firstBad h fun _ h => nomatch h
  | load | store | jr =>
    simp only [exec, execLoad, execStore, execJr]
    exact withThreeRegisters_firstBad h
  | j | jal | halt => cases h
  | _ =>
    rw [exec_alu rfl, aluInstr]
    exact withThreeRegisters_firstBad h

/-- Once every register field names a register, only the data access of load and store is left to fail. -/
theorem exec_completes {i : Instr} (hfields : i.firstBadField = none)
    (hi : ∀ ra rb rc, i ≠ .load ra rb rc ∧ i ≠ .store ra rb rc) (s : State) : ∃ t, exec i s = .next t := by
  cases i with
  | load ra rb rc => exact absurd rfl (hi ra rb rc).1
  | store ra rb rc => exact absurd rfl (hi ra rb rc).2
  | lclMsb imm16 d =>
    obtain ⟨⟨c, hc⟩, -⟩ := firstBad_cons_eq_none hfields
    exact ⟨_, exec_lclMsb s imm16 hc⟩
  | lclLsb imm16 d =>
    obtain ⟨⟨c, hc⟩, -⟩ := firstBad_cons_eq_none hfields
    exact ⟨_, exec_lclLsb s imm16 hc⟩
  | beq => obtain ⟨a, b, ha, hb⟩ := exists_twoRegisters hfields; exact ⟨_, exec_beq s ha hb⟩
  | bne => obtain ⟨a, b, ha, hb⟩ := exists_twoRegisters hfields; exact ⟨_, exec_bne s ha hb⟩
  | bgt => obtain ⟨a, b, ha, hb⟩ := exists_twoRegisters hfields; exact ⟨_, exec_bgt s ha hb⟩
  | blt => obtain ⟨a, b, ha, hb⟩ := exists_twoRegisters hfields; exact ⟨_, exec_blt s ha hb⟩
  | jr => obtain ⟨a, b, c, ha, hb, hc⟩ := exists_threeRegisters hfields; exact ⟨_, exec_jr s ha hb hc⟩
  | j | jal | halt => exact ⟨_, rfl⟩
  | _ =>
    obtain ⟨a, b, c, ha, hb, hc⟩ := exists_threeRegisters hfields
    exact ⟨_, (exec_alu rfl s).trans (aluInstr_valid s ha hb hc)⟩

theorem loadEffect_fault {a c : Fin 32} {s : State} {f : Fault} (h : loadEffect a c s = .fault f) :
    65536 ≤ effectiveAddress s a ∧ f = .addressing .load (effectiveAddress s a) := by
  unfold loadEffect at h
  split at h
  · cases h
  · next hload => cases h; exact (cacheLoad_error_iff.1 hload).2

theorem storeEffect_fault {a c : Fin 32} {s : State} {f : Fault} (h : storeEffect a c s = .fault f) :
    65536 ≤ effectiveAddress s c ∧ f = .addressing .store (effectiveAddress s c) := by
  unfold storeEffect at h
  split at h
  · cases h
  · next hstore => cases h; exact cacheStore_error_iff.1 hstore

/-- The faults of DECODE and EXECUTE_MEM_WB: the first register field that names none, or an access of load's or store's
outside memory (R134, R135). -/
inductive ExecFault (s : State) : Instr → Fault → Prop where
  | registerIndex {i : Instr} {field : RegField} {value : Byte} (hbad : i.firstBadField = some (field, value)) :
      ExecFault s i (.registerIndex field value)
  | load {ra rb rc : Byte} (a : Fin 32) (ha : ra.toNat = a) (hge : 65536 ≤ effectiveAddress s a) :
      ExecFault s (.load ra rb rc) (.addressing .load (effectiveAddress s a))
  | store {ra rb rc : Byte} (c : Fin 32) (hc : rc.toNat = c) (hge : 65536 ≤ effectiveAddress s c) :
      ExecFault s (.store ra rb rc) (.addressing .store (effectiveAddress s c))

/-- The inversion lemma of a faulting instruction, beside `exec_next_effect`. -/
theorem exec_fault {i : Instr} {s : State} {f : Fault} (h : exec i s = .fault f) : ExecFault s i f := by
  cases hbad : i.firstBadField with
  | some bad =>
    cases (exec_firstBadField hbad s).symm.trans h
    exact .registerIndex hbad
  | none =>
    cases i with
    | load =>
      obtain ⟨a, b, c, ha, hb, hc⟩ := exists_threeRegisters hbad
      obtain ⟨hge, rfl⟩ := loadEffect_fault ((exec_load s ha hb hc).symm.trans h)
      exact .load a ha hge
    | store =>
      obtain ⟨a, b, c, ha, hb, hc⟩ := exists_threeRegisters hbad
      obtain ⟨hge, rfl⟩ := storeEffect_fault ((exec_store s ha hb hc).symm.trans h)
      exact .store c hc hge
    | _ =>
      obtain ⟨t, ht⟩ := exec_completes hbad (by simp) s
      cases ht.symm.trans h

/-! ## A step by the outcome of its fetch -/

theorem nextEngine_eq_ite (e : EngineState) : nextEngine e = if e = .halted then .halted else .fetch := by
  cases e <;> rfl

theorem finishCycle_fault {r : Result} {f : Fault} (h : finishCycle r = .fault f) : r = .fault f := by
  cases r with
  | next | refused => cases h
  | fault => exact h

section
variable {opc : OpcodeMap} {s : State}

/-- With a well-formed icache map no entry shadows an address outside memory, so its fetch faults (R73). -/
theorem fetchStage_outside (hwf : s.icache.wf = true) (hge : 65536 ≤ s.pc.toNat) :
    fetchStage s = .error (.addressing .fetch s.pc.toNat) := by
  rw [fetchStage, cacheLoad_error_of_wf hwf hge]

theorem stepWith_of_fetchFault (hrun : s.engine ≠ .halted) {f : Fault} (h : fetchStage s = .error f) :
    stepWith opc s = .fault f := by
  rw [stepWith_running opc hrun, runCycle, h]

section
variable {w : Word} {icache : Cache} (hrun : s.engine ≠ .halted)
  (hload : cacheLoad .fetch s.icache s.mem s.pc.toNat = .ok (w, icache))
include hrun hload

/-- A step whose fetch succeeds runs EXECUTE_MEM_WB on what the word decodes to. -/
theorem stepWith_of_fetched : stepWith opc s = finishCycle (executeStage (decode opc w) (fetched s w icache)) := by
  rw [stepWith_running opc hrun, runCycle, fetchStage_of_load hload]
  rfl

theorem stepWith_of_known {i : Instr} (hd : decode opc w = .known i) :
    stepWith opc s = finishCycle (exec i (fetched s w icache)) := by
  rw [stepWith_of_fetched hrun hload, hd, executeStage]

theorem stepWith_of_unknown (hd : decode opc w = .unknown) :
    stepWith opc s = .next (fetched s w icache).completeCycle := by
  rw [stepWith_of_fetched hrun hload, hd]
  rfl

end

/-- The inversion lemma of a faulting step, beside `stepWith_next_cases`: the fetch faulted, or the instruction fetched
did. -/
theorem stepWith_fault_cases {f : Fault} (h : stepWith opc s = .fault f) :
    s.engine ≠ .halted ∧
      (fetchStage s = .error f ∨
        ∃ w icache i, cacheLoad .fetch s.icache s.mem s.pc.toNat = .ok (w, icache) ∧ decode opc w = .known i ∧
          ExecFault (fetched s w icache) i f) := by
  have hrun : s.engine ≠ .halted := fun hhalted => nomatch (stepWith_halted opc hhalted).symm.trans h
  refine ⟨hrun, ?_⟩
  cases hfetch : fetchStage s with
  | error g =>
    cases (stepWith_of_fetchFault hrun hfetch).symm.trans h
    exact .inl rfl
  | ok s' =>
    obtain ⟨w, icache, hload, -⟩ := fetchStage_ok hfetch
    cases hd : decode opc w with
    | known i =>
      have hexec := finishCycle_fault ((stepWith_of_known hrun hload hd).symm.trans h)
      exact .inr ⟨w, icache, i, hload, hd, exec_fault hexec⟩
    | unknown => cases (stepWith_of_unknown hrun hload hd).symm.trans h

theorem stepsWith_halted (hhalted : s.engine = .halted) (k : Nat) : stepsWith opc k s = some s := by
  induction k with
  | zero => rfl
  | succ k ih => exact (stepsWith_succ (stepWith_halted opc hhalted)).trans ih

/-! ## What the host sees of a cycle -/

theorem hostStep_of_next (hrun : s.engine ≠ .halted) {t : State} (h : stepWith opc s = .next t) :
    hostStep opc s = (.record (decodedRecord opc s.pc t.ir), t) := by
  rw [hostStep, h]
  cases he : s.engine with
  | halted => exact absurd he hrun
  | fetch | decode | executeMemWb => rfl

theorem decodedRecord_of_unknown {w : Word} (h : ∀ m, opc.value m ≠ opcodeOf w) (a : Word) :
    decodedRecord opc a w = ⟨a, w, 0#8, none, ⟨0#8, 0#8, 0#8, 0#16, 0#24⟩⟩ := by
  rw [decodedRecord, opc.mnemonicOf_eq_none.2 h]
  rfl

theorem faultState_of_fetchFault {f : Fault} (h : fetchStage s = .error f) : faultState s = s := by
  rw [faultState, h]

theorem faultReport_of_fetchFault {f : Fault} (h : fetchStage s = .error f) (g : Fault) :
    faultReport s g = ⟨g, s.cycles + 1, s.pc, none⟩ := by
  rw [faultReport, h]

end

end Sys2Proof.Machine

/-! The rules of 40_execution_cycle.md. -/

namespace Sys2Proof.Proofs

open Sys2Proof.Machine

/-- Settles O41, by induction on the number of steps. -/
theorem nothingLeavesHalted : Obligations.NothingLeavesHalted := fun _ k _ hhalted =>
  stepsWith_halted hhalted k

/-- Settles O44: the step is `stepWith_of_unknown`, whose state differs from the one before in FETCH's fields and the
count alone. -/
theorem unknownOpcodeIsANoOp : Obligations.UnknownOpcodeIsANoOp := by
  intro opc s w icache hrun hload hunknown
  have hstep := stepWith_of_unknown hrun hload ((decode_eq_unknown opc).2 hunknown)
  have hhost := hostStep_of_next hrun hstep
  rw [State.completeCycle_ir, decodedRecord_of_unknown hunknown] at hhost
  exact ⟨_, hstep, rfl, rfl, rfl, rfl, rfl, fun _ _ => rfl, fun _ _ => rfl, rfl, rfl, hhost⟩

/-- Settles O53: well-formedness is that the search for a bad field finds none, and each meaning's checks are that
search. -/
theorem firstBadRegisterFieldFaults : Obligations.FirstBadRegisterFieldFaults := fun _ =>
  ⟨firstBad_eq_none_iff.symm, fun _ _ => exec_firstBadField⟩

/-- Settles O56: a fetch outside memory faults, and a fault of kind fetch comes from the fetch alone, since an instruction
raises none. -/
theorem fetchOutsideMemoryFaults : Obligations.FetchOutsideMemoryFaults := by
  intro opc s hrun hwf
  refine ⟨⟨fun hstep => ?_, fun hge => stepWith_of_fetchFault hrun (fetchStage_outside hwf hge)⟩, fun hge => ?_⟩
  · obtain ⟨-, hfetch | ⟨w, icache, i, -, -, hexec⟩⟩ := stepWith_fault_cases hstep
    · exact (fetchStage_error_iff.1 hfetch).2.1
    · cases hexec
  · have hfetch := fetchStage_outside hwf hge
    exact ⟨faultState_of_fetchFault hfetch, faultReport_of_fetchFault hfetch⟩

/-- Settles O43: `stepWith_of_known` and `stepWith_of_unknown`, by the outcome of the instruction. -/
theorem stepRunsTheDecodedInstruction : Obligations.StepRunsTheDecodedInstruction := by
  refine ⟨?_, fun _ => rfl⟩
  rintro opc s w icache hrun hload u rfl
  refine ⟨fun i hd => ⟨fun t ht => ?_, fun f hf => ?_⟩, stepWith_of_unknown hrun hload⟩
  · rw [stepWith_of_known hrun hload hd, ht, ← nextEngine_eq_ite]
    rfl
  · rw [stepWith_of_known hrun hload hd, hf]
    rfl

end Sys2Proof.Proofs

/-! The arithmetic/logic unit path by path: an operation's path and path operands (R86) give its result and its flags,
so the flag rules R109 to R112 are said once per path; then the shifts and the two divisions as arithmetic. -/

namespace Sys2Proof.Machine

/-! ## Z and N (R107) -/

theorem signBit_eq_testBit (w : Word) : signBit w = w.toNat.testBit 31 := by
  rw [signBit, BitVec.msb_eq_getLsbD_last, BitVec.testBit_toNat]

theorem flagsOf_z (path : FlagPath) (res : Word) : (flagsOf path res).z = decide (res = 0#32) := by
  cases path <;> rfl

theorem flagsOf_n (path : FlagPath) (res : Word) : (flagsOf path res).n = signBit res := by
  cases path <;> rfl

/-! ## Overflow, by the sign bits and by the signed values (R109, R110, R112) -/

theorem addOverflow_iff {a b res : Word} :
    addOverflow a b res = true ↔
      a.toNat.testBit 31 = b.toNat.testBit 31 ∧ res.toNat.testBit 31 ≠ a.toNat.testBit 31 := by
  simp [addOverflow, signBit_eq_testBit]

theorem subOverflow_iff {a b res : Word} :
    subOverflow a b res = true ↔
      a.toNat.testBit 31 ≠ b.toNat.testBit 31 ∧ res.toNat.testBit 31 ≠ a.toNat.testBit 31 := by
  simp [subOverflow, signBit_eq_testBit]

/-- The sign rule of the masked sum is the library's test of the exact signed sum. -/
theorem addOverflow_sum (a b : Word) : addOverflow a b (a + b) = a.saddOverflow b := by
  rw [BitVec.saddOverflow_eq]
  rfl

/-- The sign rule of the masked difference is the library's test of the exact signed difference. -/
theorem subOverflow_difference (a b : Word) : subOverflow a b (a - b) = a.ssubOverflow b := by
  rw [BitVec.ssubOverflow_eq, subOverflow, signBit, signBit, signBit]
  cases a.msb <;> cases b.msb <;> simp

/-! ## The ADD path -/

section
variable {op : AluOp} {a b a' b' : Word} (h : aluPath op a b = .addPath a' b')
include h

theorem aluResult_of_addPath : aluResult op a b = a' + b' := by
  cases op with
  | add | inc => cases h; rfl
  | _ => cases h

theorem addPath_c_iff : (aluFlags op a b).c = true ↔ a'.toNat + b'.toNat > 0xFFFFFFFF := by
  rw [aluFlags, h]
  exact decide_eq_true_iff

theorem addPath_v : (aluFlags op a b).v = addOverflow a' b' (aluResult op a b) := by
  rw [aluFlags, h]
  rfl

theorem addPath_v_iff :
    (aluFlags op a b).v = true ↔ a'.toInt + b'.toInt < -(2 ^ 31) ∨ 2 ^ 31 ≤ a'.toInt + b'.toInt := by
  rw [addPath_v h, aluResult_of_addPath h, addOverflow_sum]
  simp [BitVec.saddOverflow, or_comm]

end

/-! ## The SUB path -/

section
variable {op : AluOp} {a b a' b' : Word} (h : aluPath op a b = .subPath a' b')
include h

theorem aluResult_of_subPath : aluResult op a b = a' - b' := by
  cases op with
  | sub | neg | dec => cases h; rfl
  | _ => cases h

theorem subPath_c_iff : (aluFlags op a b).c = true ↔ b'.toNat > a'.toNat := by
  rw [aluFlags, h]
  exact decide_eq_true_iff

theorem subPath_v : (aluFlags op a b).v = subOverflow a' b' (aluResult op a b) := by
  rw [aluFlags, h]
  rfl

theorem subPath_v_iff :
    (aluFlags op a b).v = true ↔ a'.toInt - b'.toInt < -(2 ^ 31) ∨ 2 ^ 31 ≤ a'.toInt - b'.toInt := by
  rw [subPath_v h, aluResult_of_subPath h, subOverflow_difference]
  simp [BitVec.ssubOverflow, or_comm]

end

/-- A difference of two words, read as a number: a borrow adds 2^32. -/
theorem coe_toNat_sub (a b : Word) : ((a - b).toNat : Int) = ((a.toNat : Int) - b.toNat) % 2 ^ 32 := by
  have ha := a.isLt
  have hb := b.isLt
  rw [BitVec.toNat_sub]
  omega

/-! ## The LOGIC path -/

theorem aluFlags_of_logicPath {op : AluOp} {a b : Word} (h : aluPath op a b = .logicPath) :
    aluFlags op a b = ⟨decide (aluResult op a b = 0#32), signBit (aluResult op a b), false, false⟩ := by
  rw [aluFlags, h]
  rfl

/-! ## Signed overflow of the operations with a constant operand: only one bound can be passed -/

section
variable (a b : Word)

theorem neg_v_iff : (aluFlags .neg a b).v = true ↔ 2 ^ 31 ≤ -a.toInt := by
  have hmax : a.toInt < 2 ^ 31 := a.toInt_lt
  refine (subPath_v_iff rfl).trans ?_
  rw [BitVec.toInt_zero]
  omega

theorem inc_v_iff : (aluFlags .inc a b).v = true ↔ 2 ^ 31 ≤ a.toInt + 1 := by
  have hmin : -(2 ^ 31) ≤ a.toInt := a.le_toInt
  have hone : (1#32).toInt = 1 := rfl
  refine (addPath_v_iff rfl).trans ?_
  omega

theorem dec_v_iff : (aluFlags .dec a b).v = true ↔ a.toInt - 1 < -(2 ^ 31) := by
  have hmax : a.toInt < 2 ^ 31 := a.toInt_lt
  have hone : (1#32).toInt = 1 := rfl
  refine (subPath_v_iff rfl).trans ?_
  omega

theorem eq_intMin_iff : a = 0x80000000#32 ↔ a.toInt ≤ -(2 ^ 31) := by
  have hmin : -(2 ^ 31) ≤ a.toInt := a.le_toInt
  have hval : (0x80000000#32).toInt = -(2 ^ 31) := rfl
  rw [← BitVec.toInt_inj]
  omega

theorem eq_intMax_iff : a = 0x7FFFFFFF#32 ↔ 2 ^ 31 ≤ a.toInt + 1 := by
  have hmax : a.toInt < 2 ^ 31 := a.toInt_lt
  have hval : (0x7FFFFFFF#32).toInt = 2 ^ 31 - 1 := rfl
  rw [← BitVec.toInt_inj]
  omega

end

/-! ## The shifts (R96 to R99) -/

section
variable (a b : Word)

theorem shiftAmount_eq_mod : shiftAmount b = b.toNat % 32 :=
  Nat.and_two_pow_sub_one_eq_mod b.toNat 5

theorem toNat_shiftLeft : (shiftLeft a b).toNat = a.toNat * 2 ^ (b.toNat % 32) % 2 ^ 32 := by
  rw [shiftLeft, BitVec.toNat_shiftLeft, Nat.shiftLeft_eq, shiftAmount_eq_mod]

theorem toNat_shiftRight : (shiftRight a b).toNat = a.toNat / 2 ^ (b.toNat % 32) := by
  rw [shiftRight, BitVec.toNat_ushiftRight, Nat.shiftRight_eq_div_pow, shiftAmount_eq_mod]

/-- R97's fill of the vacated bits is the library's sign-extending shift. -/
theorem shiftRightArith_eq_sshiftRight : shiftRightArith a b = a.sshiftRight (shiftAmount b) := by
  rw [shiftRightArith, signBit]
  cases hmsb : a.msb with
  | false => exact (BitVec.sshiftRight_eq_of_msb_false hmsb).symm
  | true =>
    have hones : (0xFFFFFFFF#32) = BitVec.allOnes 32 := rfl
    refine BitVec.eq_of_getLsbD_eq fun i hi => ?_
    rw [BitVec.getLsbD_sshiftRight, hmsb, if_pos rfl, hones, BitVec.getLsbD_or, BitVec.getLsbD_ushiftRight,
      BitVec.getLsbD_shiftLeft, BitVec.getLsbD_allOnes]
    by_cases hkept : shiftAmount b + i < 32
    · have hbelow : i < 32 - shiftAmount b := by omega
      simp [hi, hkept, hbelow]
    · have hvacated : ¬ i < 32 - shiftAmount b := by omega
      have hfill : i - (32 - shiftAmount b) < 32 := by omega
      simp [hi, hkept, hvacated, hfill]

theorem toInt_shiftRightArith : (shiftRightArith a b).toInt = a.toInt / 2 ^ (b.toNat % 32) := by
  rw [shiftRightArith_eq_sshiftRight, BitVec.toInt_sshiftRight, Int.shiftRight_eq_div_pow, shiftAmount_eq_mod]
  push_cast
  rfl

/-! ## Division (R102, R103) -/

@[simp] theorem divide_zero : divide a 0#32 = 0#32 := if_pos rfl

@[simp] theorem modulo_zero : modulo a 0#32 = 0#32 := if_pos rfl

variable {b}

theorem toNat_divide (hb : b ≠ 0#32) : (divide a b).toNat = a.toNat / b.toNat := by
  rw [divide, if_neg hb, BitVec.toNat_udiv]

theorem toNat_modulo (hb : b ≠ 0#32) : (modulo a b).toNat = a.toNat % b.toNat := by
  rw [modulo, if_neg hb, BitVec.toNat_umod]

end

end Sys2Proof.Machine

/-! The rules of 41_alu.md. -/

namespace Sys2Proof.Proofs

open Sys2Proof.Machine

/-- Settles O19: every path takes Z and N from the result alone. -/
theorem zeroAndNegativeFollowTheResult : Obligations.ZeroAndNegativeFollowTheResult := by
  intro op a b
  rw [aluFlags, flagsOf_z, flagsOf_n, signBit_eq_testBit, decide_eq_true_iff, BitVec.toNat_eq]
  exact ⟨Iff.rfl, rfl⟩

/-- Settles O20: both operations are on the ADD path with the operands named. -/
theorem addPathResultCarryAndOverflow : Obligations.AddPathResultCarryAndOverflow := by
  intro op a b b' hop
  have hpath : aluPath op a b = .addPath a b' := by
    obtain ⟨rfl, rfl⟩ | ⟨rfl, rfl⟩ := hop <;> rfl
  refine ⟨?_, addPath_c_iff hpath, ?_⟩
  · rw [aluResult_of_addPath hpath, BitVec.toNat_add]
  · rw [addPath_v hpath, addOverflow_iff]

/-- Settles O21: the three operations are on the SUB path with the operands named. -/
theorem subPathResultBorrowAndOverflow : Obligations.SubPathResultBorrowAndOverflow := by
  intro op a b a' b' hop
  have hpath : aluPath op a b = .subPath a' b' := by
    obtain ⟨rfl, rfl, rfl⟩ | ⟨rfl, rfl, rfl⟩ | ⟨rfl, rfl, rfl⟩ := hop <;> rfl
  refine ⟨?_, subPath_c_iff hpath, ?_⟩
  · rw [aluResult_of_subPath hpath, coe_toNat_sub]
  · rw [subPath_v hpath, subOverflow_iff]

/-- Settles O22: the thirteen operations are the ones `aluPath` puts on the LOGIC path. -/
theorem logicPathClearsCarryAndOverflow : Obligations.LogicPathClearsCarryAndOverflow := by
  intro op a b hop
  have hpath : aluPath op a b = .logicPath := by
    cases op with
    | add | sub | neg | inc | dec => simp at hop
    | _ => rfl
  rw [aluFlags_of_logicPath hpath]
  exact ⟨rfl, rfl⟩

/-- Settles O23: the sign rules of the two paths are tests of the exact signed result, of which neg, inc and dec can
pass one bound only. -/
theorem overflowIsASignedResultOutOfRange : Obligations.OverflowIsASignedResultOutOfRange := fun a b =>
  ⟨addPath_v_iff rfl, subPath_v_iff rfl, neg_v_iff a b, inc_v_iff a b, dec_v_iff a b⟩

/-- Settles O24: the carries from the paths' bounds, and V because one word alone passes the signed bound. -/
theorem negIncDecFlagsInClosedForm : Obligations.NegIncDecFlagsInClosedForm := by
  intro a b
  have ha := a.isLt
  refine ⟨subPath_c_iff (a' := 0#32) rfl, ?_, (addPath_c_iff rfl).trans ?_, ?_, (subPath_c_iff rfl).trans ?_, ?_⟩
  · rw [neg_v_iff, eq_intMin_iff]
    omega
  · rw [BitVec.toNat_eq, BitVec.toNat_ofNat, BitVec.toNat_ofNat]
    omega
  · rw [inc_v_iff, eq_intMax_iff]
  · rw [BitVec.toNat_eq, BitVec.toNat_ofNat, BitVec.toNat_ofNat]
    omega
  · rw [dec_v_iff, eq_intMin_iff]
    omega

/-- Settles O25: each result is the library's bitwise operation, and `not` is the distance to the all-ones word. -/
theorem logicalResultsBitByBit : Obligations.LogicalResultsBitByBit := by
  intro a b k hk
  refine ⟨BitVec.getLsbD_zero, BitVec.getLsbD_xor, BitVec.getLsbD_or, ?_, BitVec.getLsbD_and, rfl, BitVec.toNat_not⟩
  simp [aluResult, hk]

/-- Settles O26, by the arithmetic of the three shifts; asl and lsl are one function. -/
theorem shiftsMultiplyAndDivideByPowersOfTwo : Obligations.ShiftsMultiplyAndDivideByPowersOfTwo := fun a b =>
  ⟨toNat_shiftLeft a b, rfl, toNat_shiftRight a b, toInt_shiftRightArith a b⟩

/-- Settles O27: a zero divisor gives 0 on the LOGIC path, any other divides as natural numbers. -/
theorem productQuotientAndRemainder : Obligations.ProductQuotientAndRemainder := by
  intro a b
  refine ⟨BitVec.toNat_mul a b, ?_, fun hb => ?_⟩
  · rintro rfl
    have hdiv : aluResult .div a 0#32 = 0#32 := divide_zero a
    have hmod : aluResult .mod a 0#32 = 0#32 := modulo_zero a
    refine ⟨hdiv, hmod, ?_, ?_⟩
    · rw [aluFlags_of_logicPath rfl, hdiv]
      rfl
    · rw [aluFlags_of_logicPath rfl, hmod]
      rfl
  · have hmod : (aluResult .mod a b).toNat = a.toNat % b.toNat := toNat_modulo a hb
    have hpos : 0 < b.toNat := Nat.pos_of_ne_zero (BitVec.toNat_ne_iff_ne.2 hb)
    rw [hmod]
    exact ⟨toNat_divide a hb, Nat.mod_eq_sub_mul_div, Nat.mod_lt _ hpos⟩

/-- Settles O28: the instruction is R88's template, whose effect writes RC and the flags alone. -/
theorem aluInstructionsComplete : Obligations.AluInstructionsComplete := by
  intro i op ra rb rc a b c s hi ha hb hc
  refine ⟨aluEffect op a b c s, (exec_alu hi s).trans (aluInstr_valid s ha hb hc), aluEffect_reg_self op a b c s,
    aluEffect_flags op a b c s, fun k hk => ?_, fun _ _ => ?_, ?_, ?_, ?_, ?_⟩
  · exact aluEffect_reg_other op a b c s k (List.ne_of_not_mem_cons hk)
  · rw [aluEffect_mem]
  · exact ⟨aluEffect_ir op a b c s, aluEffect_icache op a b c s, aluEffect_cycles op a b c s⟩
  · exact aluEffect_pc op a b c s
  · exact aluEffect_dcache op a b c s
  · exact aluEffect_engine op a b c s

end Sys2Proof.Proofs

/-! The two merges of 42_load_constant.md on a word written as its halves, `hi ++ lo`, and the write-back's frame. -/

namespace Sys2Proof.Machine

theorem exists_halves (w : Word) : ∃ hi lo : BitVec 16, w = hi ++ lo :=
  ⟨_, _, (BitVec.extractLsb'_append_extractLsb' (w := 16) (len := 16)).symm⟩

theorem toNat_halves (hi lo : BitVec 16) : (hi ++ lo).toNat = hi.toNat * 2 ^ 16 + lo.toNat := by
  rw [BitVec.toNat_append, ← Nat.shiftLeft_add_eq_or_of_lt lo.isLt, Nat.shiftLeft_eq]

/-- lcl_msb's merge (R114): the immediate as the high half beside the old low half. -/
theorem mergeHigh_halves (hi lo imm16 : BitVec 16) : mergeHigh (hi ++ lo) imm16 = imm16 ++ lo := by
  have himm : imm16.setWidth 32 <<< 16 = imm16 ++ 0#16 := by
    simpa using (BitVec.setWidth_append_eq_shiftLeft_setWidth_or (w'' := 32) (b := imm16) (b' := 0#16)).symm
  have hmask : 0x0000FFFF#32 = 0#16 ++ BitVec.allOnes 16 := rfl
  rw [mergeHigh, himm, hmask, BitVec.and_append, BitVec.or_append, BitVec.and_zero, BitVec.or_zero,
    BitVec.and_allOnes, BitVec.zero_or]

/-- lcl_lsb's merge (R115): the old high half beside the immediate as the low half. -/
theorem mergeLow_halves (hi lo imm16 : BitVec 16) : mergeLow (hi ++ lo) imm16 = hi ++ imm16 := by
  have himm : imm16.setWidth 32 = 0#16 ++ imm16 := BitVec.setWidth_eq_append (by decide)
  have hmask : 0xFFFF0000#32 = BitVec.allOnes 16 ++ 0#16 := rfl
  rw [mergeLow, himm, hmask, BitVec.and_append, BitVec.or_append, BitVec.and_allOnes, BitVec.or_zero,
    BitVec.and_zero, BitVec.zero_or]

section
variable (old : Word) (imm16 hi lo : BitVec 16)

theorem toNat_mergeHigh : (mergeHigh old imm16).toNat = imm16.toNat * 2 ^ 16 + old.toNat % 2 ^ 16 := by
  obtain ⟨hi, lo, rfl⟩ := exists_halves old
  rw [mergeHigh_halves, toNat_halves, toNat_halves, Nat.mul_add_mod_of_lt lo.isLt]

theorem toNat_mergeLow : (mergeLow old imm16).toNat = old.toNat / 2 ^ 16 * 2 ^ 16 + imm16.toNat := by
  obtain ⟨hi, lo, rfl⟩ := exists_halves old
  have hlo := lo.isLt
  rw [mergeLow_halves, toNat_halves, toNat_halves]
  omega

theorem mergeLow_mergeHigh : mergeLow (mergeHigh old hi) lo = hi ++ lo := by
  obtain ⟨hi', lo', rfl⟩ := exists_halves old
  rw [mergeHigh_halves, mergeLow_halves]

theorem mergeHigh_mergeLow : mergeHigh (mergeLow old lo) hi = hi ++ lo := by
  obtain ⟨hi', lo', rfl⟩ := exists_halves old
  rw [mergeLow_halves, mergeHigh_halves]

end

/-- A write-back (R81) keeps every other register and the rest of the state. -/
theorem State.writeBack_frame (s : State) (i : Fin 32) (v : Word) :
    RegistersKept [i] s (s.writeBack i v) ∧ MemoryKept [] s (s.writeBack i v) ∧ FetchStateKept s (s.writeBack i v) ∧
      (s.writeBack i v).flags = s.flags ∧ (s.writeBack i v).pc = s.pc ∧ (s.writeBack i v).dcache = s.dcache ∧
      (s.writeBack i v).engine = s.engine :=
  ⟨fun k hk => s.reg_writeBack_other i k v (List.ne_of_not_mem_cons hk), fun _ _ => by rw [s.writeBack_mem],
    ⟨s.writeBack_ir i v, s.writeBack_icache i v, s.writeBack_cycles i v⟩, s.writeBack_flags i v, s.writeBack_pc i v,
    s.writeBack_dcache i v, s.writeBack_engine i v⟩

/-- A write-back to a register other than r0 is read back whole (R81). -/
theorem State.reg_writeBack_of_ne_zero (s : State) {i : Fin 32} (v : Word) (hi : i ≠ 0) :
    (s.writeBack i v).reg i = v := by
  rw [s.reg_writeBack_self, if_neg hi]

end Sys2Proof.Machine

/-! The rules of 42_load_constant.md. -/

namespace Sys2Proof.Proofs

open Sys2Proof.Machine

/-- Settles O29: each instruction is one write-back of its merge, and r0 drops it (D10). -/
theorem loadConstantReplacesOneHalf : Obligations.LoadConstantReplacesOneHalf := by
  intro imm16 d i s hd
  refine ⟨⟨_, exec_lclMsb s imm16 hd, ?_, s.writeBack_frame i _⟩,
    ⟨_, exec_lclLsb s imm16 hd, ?_, s.writeBack_frame i _⟩⟩
  · rw [s.reg_writeBack_self, apply_ite BitVec.toNat, toNat_mergeHigh]
  · rw [s.reg_writeBack_self, apply_ite BitVec.toNat, toNat_mergeLow]

/-- Settles O30: the second merge keeps the half that the first one wrote. -/
theorem twoLoadConstantsLoadAnyWord : Obligations.TwoLoadConstantsLoadAnyWord := by
  intro w d i s hd hi
  have hw : w.extractLsb' 16 16 ++ w.extractLsb' 0 16 = w := BitVec.extractLsb'_append_extractLsb'
  refine ⟨⟨_, _, exec_lclMsb s _ hd, exec_lclLsb _ _ hd, ?_⟩, ⟨_, _, exec_lclLsb s _ hd, exec_lclMsb _ _ hd, ?_⟩⟩
  · rw [State.reg_writeBack_of_ne_zero _ _ hi, s.reg_writeBack_of_ne_zero _ hi, mergeLow_mergeHigh, hw]
  · rw [State.reg_writeBack_of_ne_zero _ _ hi, s.reg_writeBack_of_ne_zero _ hi, mergeHigh_mergeLow, hw]

end Sys2Proof.Proofs

/-! load and store on fields that name registers: load completes with whatever `cacheLoad` answers and writes it back,
store completes where its address is in memory. -/

namespace Sys2Proof.Machine

/-- A cache load in memory always answers: the entry where there is one, memory's word where there is none (R40). -/
theorem exists_cacheLoad (kind : AccessKind) (c : Cache) (m : Memory) {a : Nat} (ha : a < 65536) :
    ∃ c', cacheLoad kind c m a = .ok ((c.lookup a).getD (m.read a), c') := by
  cases hl : c.lookup a with
  | none => exact ⟨_, cacheLoad_miss hl ha⟩
  | some v => exact ⟨_, cacheLoad_hit hl⟩

/-- Where the entries equal memory, entry or memory's word makes no difference (R55). -/
theorem Cache.CoherentWith.lookup_getD {c : Cache} {m : Memory} (hc : c.CoherentWith m) (a : Nat) :
    (c.lookup a).getD (m.read a) = m.read a := by
  cases hl : c.lookup a with
  | none => rfl
  | some v => exact (hc a v hl).symm

section
variable {ra rb rc : Byte} {a b c : Fin 32} {s : State} (ha : ra.toNat = a) (hb : rb.toNat = b) (hc : rc.toNat = c)
include ha hb hc

/-- load (R117) completes with the word and the dcache that `cacheLoad` answers; r0 drops the word (D10). -/
theorem exec_load_of_cacheLoad {v : Word} {dcache : Cache}
    (h : cacheLoad .load s.dcache s.mem (effectiveAddress s a) = .ok (v, dcache)) :
    ∃ t, exec (.load ra rb rc) s = .next t ∧ t.dcache = dcache ∧ t.reg c = (if c = 0 then s.reg 0 else v) ∧
      RegistersKept [c] s t ∧ MemoryKept [] s t ∧ FetchStateKept s t ∧
      t.flags = s.flags ∧ t.pc = s.pc ∧ t.engine = s.engine := by
  have hexec : exec (.load ra rb rc) s = .next ({ s with dcache := dcache }.writeBack c v) := by
    simp only [exec_load s ha hb hc, loadEffect, h]
  obtain ⟨hregs, hmem, hfetch, hflags, hpc, hdcache, hengine⟩ := State.writeBack_frame { s with dcache := dcache } c v
  exact ⟨_, hexec, hdcache, State.reg_writeBack_self _ c v, hregs, hmem, hfetch, hflags, hpc, hengine⟩

/-- store (R118) to an address in memory completes with its two writes. -/
theorem exec_store_of_lt (hlt : effectiveAddress s c < 65536) :
    exec (.store ra rb rc) s = .next { s with dcache := s.dcache.setEntry (effectiveAddress s c) (s.reg a),
                                              mem := s.mem.write (effectiveAddress s c) (s.reg a) } := by
  simp only [exec_store s ha hb hc, storeEffect, cacheStore_ok_iff.2 ⟨hlt, rfl, rfl⟩]

end

end Sys2Proof.Machine

/-! The rules of 43_load_store.md. -/

namespace Sys2Proof.Proofs

open Sys2Proof.Machine

/-- Settles O31: `cacheLoad` misses, reads memory and fills its map. -/
theorem loadMissReadsMemoryAndFills : Obligations.LoadMissReadsMemoryAndFills := by
  intro ra rb rc a b c s ha hb hc hnone hlt
  have hload := cacheLoad_miss (kind := .load) (m := s.mem) hnone hlt
  obtain ⟨t, hexec, hdcache, hreg, hregs, hmem, hfetch, hrest⟩ := exec_load_of_cacheLoad ha hb hc hload
  refine ⟨t, hexec, hreg, hregs, hmem, hfetch, ?_⟩
  rw [hdcache]
  exact ⟨cacheLoad_lookup_self hload, fun _ => cacheLoad_lookup_other hload, rfl, rfl, hrest⟩

/-- Settles O32: `cacheLoad` hits and changes its hit counter alone. -/
theorem loadHitReturnsTheEntry : Obligations.LoadHitReturnsTheEntry := by
  intro ra rb rc a b c s v ha hb hc hentry
  obtain ⟨t, hexec, hdcache, hreg, hregs, hmem, hfetch, hrest⟩ :=
    exec_load_of_cacheLoad ha hb hc (cacheLoad_hit (m := s.mem) hentry)
  refine ⟨t, hexec, hreg, hregs, hmem, hfetch, ?_⟩
  rw [hdcache]
  exact ⟨rfl, rfl, rfl, hrest⟩

/-- Settles O33: in range `cacheLoad` answers, hit or miss, and a coherent entry is memory's word. -/
theorem loadReturnsWhatMemoryHolds : Obligations.LoadReturnsWhatMemoryHolds := by
  intro ra rb rc a b c s ha hb hc hcoherent hlt
  obtain ⟨dcache, hload⟩ := exists_cacheLoad .load s.dcache s.mem hlt
  obtain ⟨t, hexec, hdcache, hreg, -⟩ := exec_load_of_cacheLoad ha hb hc hload
  rw [Cache.CoherentWith.lookup_getD hcoherent] at hreg
  exact ⟨t, hexec, hreg, by rw [hdcache]; exact cacheLoad_counts hload⟩

/-- Settles O34: the next state differs in the two writes alone, each read back at its own address only. -/
theorem storeWritesMemoryAndTheMap : Obligations.StoreWritesMemoryAndTheMap := by
  intro ra rb rc a b c s ha hb hc hlt
  exact ⟨_, exec_store_of_lt ha hb hc hlt, Memory.read_write_self ..,
    fun k hk => Memory.read_write_other s.mem _ (List.ne_of_not_mem_cons hk), Cache.lookup_setEntry_self ..,
    fun _ => Cache.lookup_setEntry_other s.dcache _, rfl, rfl, fun _ _ => rfl, ⟨rfl, rfl, rfl⟩, rfl, rfl, rfl⟩

/-- Settles O35: the store left an entry for its address, so the load hits it. -/
theorem loadAfterStoreReturnsTheStoredWord : Obligations.LoadAfterStoreReturnsTheStoredWord := by
  intro ra rb rc ra' rb' rd a b c a' b' d s t ha hb hc ha' hb' hd hstore haddress
  obtain ⟨-, ht⟩ := storeEffect_next ((exec_store s ha hb hc).symm.trans hstore)
  have hentry : t.dcache.lookup (effectiveAddress t a') = some (s.reg a) := by
    rw [haddress, ht]
    exact Cache.lookup_setEntry_self ..
  have hzero : t.reg 0 = s.reg 0 := (exec_next_effect hstore).reg_kept (.inl rfl)
  obtain ⟨u, hexec, hreg, -, -, -, -, hhits, hmisses, -⟩ :=
    loadHitReturnsTheEntry ra' rb' rd a' b' d t (s.reg a) ha' hb' hd hentry
  rw [hzero] at hreg
  exact ⟨u, hexec, hreg, hhits, hmisses⟩

end Sys2Proof.Proofs

/-! Control transfer as one write of pc (`State.jumpTo`), halt as the one effect that stops the engine, and where a cycle
that ends outside memory leads. -/

namespace Sys2Proof.Machine

/-! ## Transfers of control -/

theorem toNat_branchTarget (target : Byte) : (branchTarget target).toNat = target.toNat :=
  BitVec.toNat_setWidth_of_le (by decide)

theorem toNat_jumpTarget (addr24 : BitVec 24) : (jumpTarget addr24).toNat = addr24.toNat :=
  BitVec.toNat_setWidth_of_le (by decide)

/-- A write of pc changes nothing else. -/
theorem State.jumpTo_frame (s : State) (target : Word) :
    RegistersKept [] s (s.jumpTo target) ∧ MemoryKept [] s (s.jumpTo target) ∧ FetchStateKept s (s.jumpTo target) ∧
      (s.jumpTo target).flags = s.flags ∧ (s.jumpTo target).dcache = s.dcache ∧
      (s.jumpTo target).engine = s.engine :=
  ⟨fun _ _ => rfl, fun _ _ => rfl, ⟨rfl, rfl, rfl⟩, rfl, rfl, rfl⟩

/-- A branch not taken writes pc's own value. -/
theorem branchEffect_eq_jumpTo (taken : Bool) (target : Byte) (s : State) :
    branchEffect taken target s = s.jumpTo (if taken then branchTarget target else s.pc) := by
  cases taken <;> rfl

/-- A branch taken exactly where `p` holds goes to its field there, keeps pc elsewhere, and changes nothing else
(R124). -/
theorem branchEffect_spec {taken : Bool} {p : Prop} [Decidable p] (htaken : taken = true ↔ p) (target : Byte)
    (s : State) :
    (branchEffect taken target s).pc.toNat = (if p then target.toNat else s.pc.toNat) ∧
      RegistersKept [] s (branchEffect taken target s) ∧ MemoryKept [] s (branchEffect taken target s) ∧
      FetchStateKept s (branchEffect taken target s) ∧ (branchEffect taken target s).flags = s.flags ∧
      (branchEffect taken target s).dcache = s.dcache ∧ (branchEffect taken target s).engine = s.engine := by
  rw [branchEffect_eq_jumpTo]
  refine ⟨?_, s.jumpTo_frame _⟩
  simp only [State.jumpTo_pc, htaken, apply_ite BitVec.toNat, toNat_branchTarget]

theorem branchGreater_iff {signed : Bool} {a b : Word} :
    branchGreater signed a b = true ↔
      (signed = true ∧ b.toInt < a.toInt) ∨ (signed = false ∧ b.toNat < a.toNat) := by
  cases signed <;> simp [branchGreater]

theorem branchLess_iff {signed : Bool} {a b : Word} :
    branchLess signed a b = true ↔
      (signed = true ∧ a.toInt < b.toInt) ∨ (signed = false ∧ a.toNat < b.toNat) := by
  cases signed <;> simp [branchLess]

/-! ## halt -/

theorem decode_eq_halt (opc : OpcodeMap) {w : Word} : decode opc w = .known .halt ↔ opcodeOf w = 0xFF#8 := by
  rw [← opc.halt_value, eq_comm (a := opcodeOf w)]
  simp only [decode_eq_known, instrOf_eq_halt, exists_eq_right]

theorem nextEngine_eq_halted_iff {e : EngineState} : nextEngine e = .halted ↔ e = .halted := by
  cases e <;> simp [nextEngine]

/-- From a running engine, halt alone stops it (R129, R132). -/
theorem ExecEffect.engine_eq_halted_iff {s t : State} {i : Instr} (h : ExecEffect s i t) (hrun : s.engine ≠ .halted) :
    t.engine = .halted ↔ i = .halt := by
  constructor
  · intro hhalted
    by_contra hi
    exact hrun ((h.engine_kept hi).symm.trans hhalted)
  · rintro rfl
    cases h with
    | alu a b c hi => cases hi
    | halt => rfl

theorem stepWith_engine_eq_halted_iff {opc : OpcodeMap} {s t : State} (hrun : s.engine ≠ .halted)
    (h : stepWith opc s = .next t) : t.engine = .halted ↔ decode opc t.ir = .known .halt := by
  obtain ⟨hhalted, -⟩ | ⟨-, w, icache, -, ⟨i, u, hd, heffect, rfl⟩ | ⟨hd, rfl⟩⟩ := stepWith_next_cases h
  · exact absurd hhalted hrun
  · obtain ⟨hir, -, -⟩ := heffect.fetchStateKept
    have hfetched : (fetched s w icache).engine ≠ .halted := by simp
    rw [State.completeCycle_engine, nextEngine_eq_halted_iff, heffect.engine_eq_halted_iff hfetched,
      State.completeCycle_ir, hir, hd, Decoded.known.injEq]
  · simp [hd, nextEngine]

/-! ## Beyond memory -/

section
variable {opc : OpcodeMap} {s t : State} (hinv : s.Inv)
include hinv

/-- A step that leaves a running engine with pc outside memory: the next one faults on its fetch and commits nothing
(R131, R139). -/
theorem fetchFault_after_step (hstep : stepWith opc s = .next t) (hrun : t.engine ≠ .halted)
    (hge : 65536 ≤ t.pc.toNat) : stepWith opc t = .fault (.addressing .fetch t.pc.toNat) ∧ faultState t = t := by
  have htinv : t.Inv := stepWith_keeps_inv hinv hstep
  have hfetch := fetchStage_outside htinv.icache_wf hge
  exact ⟨stepWith_of_fetchFault hrun hfetch, faultState_of_fetchFault hfetch⟩

/-- So it is where the instruction fetched completes with pc outside memory and leaves the engine running. -/
theorem completesThenFetchFaults_of_exec {w : Word} {icache : Cache} {i : Instr} {u : State}
    (hrun : s.engine ≠ .halted) (hload : cacheLoad .fetch s.icache s.mem s.pc.toNat = .ok (w, icache))
    (hd : decode opc w = .known i) (hexec : exec i (fetched s w icache) = .next u) (hu : u.engine = .executeMemWb)
    (hge : 65536 ≤ u.pc.toNat) : CompletesThenFetchFaults opc s u.pc.toNat := by
  have hstep : stepWith opc s = .next u.completeCycle := by
    rw [stepWith_of_known hrun hload hd, hexec, finishCycle]
  have hengine : u.completeCycle.engine = .fetch := by rw [State.completeCycle_engine, hu, nextEngine]
  exact ⟨_, hstep, rfl, hengine, fetchFault_after_step hinv hstep (by rw [hengine]; decide) hge⟩

end

end Sys2Proof.Machine

/-! The rules of 44_control.md. -/

namespace Sys2Proof.Proofs

open Sys2Proof.Machine

/-- Settles O36: j writes pc alone, jal after the link register. -/
theorem jumpsSetThePcAndJalLinks : Obligations.JumpsSetThePcAndJalLinks := by
  intro addr24 s
  refine ⟨⟨_, rfl, toNat_jumpTarget addr24, s.jumpTo_frame _⟩, ⟨_, rfl, toNat_jumpTarget addr24, ?_, ?_, ?_⟩⟩
  · exact s.reg_setReg_self Config.linkReg s.pc
  · exact fun k hk => s.reg_setReg_other _ k s.pc (List.ne_of_not_mem_cons hk)
  · exact ⟨fun _ _ => rfl, ⟨rfl, rfl, rfl⟩, rfl, rfl, rfl⟩

/-- Settles O37, by `exec_jr` and the frame of its write. -/
theorem jumpRegisterSetsThePc : Obligations.JumpRegisterSetsThePc := fun _ _ _ _ _ _ s ha hb hc =>
  ⟨_, exec_jr s ha hb hc, rfl, s.jumpTo_frame _⟩

/-- Settles O38: beq is taken on equality, bne on its negation. -/
theorem equalityBranchesGoToTheirField : Obligations.EqualityBranchesGoToTheirField := by
  rintro i ra rb target a b s ha hb (rfl | rfl)
  · exact ⟨_, exec_beq s ha hb, branchEffect_spec (by simp) target s⟩
  · exact ⟨_, exec_bne s ha hb, branchEffect_spec (by simp) target s⟩

/-- Settles O39: the two relations by the value of BRANCH_SIGNED. -/
theorem orderBranchesCompareAsBranchSignedSays : Obligations.OrderBranchesCompareAsBranchSignedSays :=
  fun _ _ target _ _ s ha hb =>
    ⟨⟨_, exec_bgt s ha hb, branchEffect_spec branchGreater_iff target s⟩,
      ⟨_, exec_blt s ha hb, branchEffect_spec branchLess_iff target s⟩⟩

/-- Settles O40: halt writes the engine alone, and its opcode byte is enough for a word to decode to it (D7). -/
theorem haltStopsTheEngine : Obligations.HaltStopsTheEngine := by
  refine ⟨fun s => ⟨_, rfl, rfl, fun _ _ => rfl, fun _ _ => rfl, ⟨rfl, rfl, rfl⟩, rfl, rfl, rfl⟩, ?_⟩
  intro opc s w icache hrun hload hopcode
  have hstep := stepWith_of_known hrun hload ((decode_eq_halt opc).2 hopcode)
  exact ⟨_, hstep, rfl, rfl, rfl, rfl, rfl, fun _ _ => rfl, fun _ _ => rfl, rfl, rfl⟩

/-- Settles O42: a completed cycle halts exactly on halt, and its engine is at FETCH or HALTED. -/
theorem onlyHaltChangesTheEngineState : Obligations.OnlyHaltChangesTheEngineState := fun _ _ _ hrun hstep =>
  ⟨stepWith_engine_eq_halted_iff hrun hstep, (stepWith_completedCycle hrun hstep).engine.symm⟩

/-- Settles O57: j, jal and jr complete with pc at their target whatever it is, and the fetch there faults. -/
theorem transferBeyondMemoryFaultsAtTheNextFetch : Obligations.TransferBeyondMemoryFaultsAtTheNextFetch := by
  refine ⟨fun opc s w icache hinv hrun hload => ⟨fun addr24 hd hge => ?_, fun ra rb rc a b c ha hb hc hd hge => ?_⟩,
    fun opc s t hinv => fetchFault_after_step hinv⟩
  · rw [← toNat_jumpTarget] at hge ⊢
    obtain hd | hd := hd
    · exact completesThenFetchFaults_of_exec hinv hrun hload hd rfl rfl hge
    · exact completesThenFetchFaults_of_exec hinv hrun hload hd rfl rfl hge
  · exact completesThenFetchFaults_of_exec hinv hrun hload hd (exec_jr _ ha hb hc) rfl hge

end Sys2Proof.Proofs

/-! The ends of an instruction, a step and a run: an instruction and a step complete or fault, a fault after FETCH
leaves FETCH's effects, and the run loop ends halted, at its bound, or in a fault. -/

namespace Sys2Proof.Machine

/-! ## Data accesses outside memory (R134) -/

section
variable {ra rb rc : Byte} {a b c : Fin 32} {s : State} (ha : ra.toNat = a) (hb : rb.toNat = b) (hc : rc.toNat = c)
include ha hb hc

theorem exec_load_outside (hwf : s.dcache.wf = true) (hge : 65536 ≤ effectiveAddress s a) :
    exec (.load ra rb rc) s = .fault (.addressing .load (effectiveAddress s a)) := by
  simp only [exec_load s ha hb hc, loadEffect, cacheLoad_error_of_wf hwf hge]

theorem exec_store_outside (hge : 65536 ≤ effectiveAddress s c) :
    exec (.store ra rb rc) s = .fault (.addressing .store (effectiveAddress s c)) := by
  simp only [exec_store s ha hb hc, storeEffect, cacheStore_error_iff.2 ⟨hge, rfl⟩]

end

/-! ## Nothing is refused -/

theorem loadEffect_next_or_fault (a c : Fin 32) (s : State) :
    (∃ t, loadEffect a c s = .next t) ∨ ∃ f, loadEffect a c s = .fault f := by
  unfold loadEffect
  split
  · exact .inl ⟨_, rfl⟩
  · exact .inr ⟨_, rfl⟩

theorem storeEffect_next_or_fault (a c : Fin 32) (s : State) :
    (∃ t, storeEffect a c s = .next t) ∨ ∃ f, storeEffect a c s = .fault f := by
  unfold storeEffect
  split
  · exact .inl ⟨_, rfl⟩
  · exact .inr ⟨_, rfl⟩

/-- An instruction completes or faults; `exec_next_effect` and `exec_fault` say how. -/
theorem exec_next_or_fault (i : Instr) (s : State) : (∃ t, exec i s = .next t) ∨ ∃ f, exec i s = .fault f := by
  cases hbad : i.firstBadField with
  | some bad => exact .inr ⟨_, exec_firstBadField hbad s⟩
  | none =>
    cases i with
    | load =>
      obtain ⟨a, b, c, ha, hb, hc⟩ := exists_threeRegisters hbad
      rw [exec_load s ha hb hc]
      exact loadEffect_next_or_fault a c s
    | store =>
      obtain ⟨a, b, c, ha, hb, hc⟩ := exists_threeRegisters hbad
      rw [exec_store s ha hb hc]
      exact storeEffect_next_or_fault a c s
    | _ => exact .inl (exec_completes hbad (by simp) s)

/-- A step completes or faults; `stepWith_next_cases` and `stepWith_fault_cases` say how. -/
theorem stepWith_next_or_fault (opc : OpcodeMap) (s : State) :
    (∃ t, stepWith opc s = .next t) ∨ ∃ f, stepWith opc s = .fault f := by
  by_cases hrun : s.engine = .halted
  · exact .inl ⟨s, stepWith_halted opc hrun⟩
  cases hfetch : fetchStage s with
  | error f => exact .inr ⟨f, stepWith_of_fetchFault hrun hfetch⟩
  | ok s' =>
    obtain ⟨w, icache, hload, -⟩ := fetchStage_ok hfetch
    cases hd : decode opc w with
    | unknown => exact .inl ⟨_, stepWith_of_unknown hrun hload hd⟩
    | known i =>
      rw [stepWith_of_known hrun hload hd]
      obtain ⟨t, ht⟩ | ⟨f, hf⟩ := exec_next_or_fault i (fetched s w icache)
      · exact .inl ⟨t.completeCycle, by rw [ht, finishCycle]⟩
      · exact .inr ⟨f, by rw [hf, finishCycle]⟩

/-! ## What a fault after FETCH leaves and reports (R137, R139) -/

section
variable {s : State} {w : Word} {icache : Cache}
  (hload : cacheLoad .fetch s.icache s.mem s.pc.toNat = .ok (w, icache))
include hload

theorem faultState_of_fetched : faultState s = { s with ir := w, pc := s.pc + 1#32, icache := icache } := by
  rw [faultState, fetchStage_of_load hload]

theorem faultReport_of_fetched (f : Fault) : faultReport s f = ⟨f, s.cycles + 1, s.pc, some w⟩ := by
  rw [faultReport, fetchStage_of_load hload]

end

/-! ## The run loop (R157) -/

section
variable {opc : OpcodeMap} {fuel : Nat} {s t : State}

theorem runLoop_of_fault {f : Fault} (h : stepWith opc s = .fault f) :
    runLoop opc (fuel + 1) s = .fault (faultReport s f) (faultState s) := by
  rw [runLoop, h]

theorem runLoop_of_halted (h : stepWith opc s = .next t) (ht : t.engine = .halted) :
    runLoop opc (fuel + 1) s = .halted t := by
  simp only [runLoop, h, ht]

theorem runLoop_of_running (h : stepWith opc s = .next t) (ht : t.engine ≠ .halted) :
    runLoop opc (fuel + 1) s = runLoop opc fuel t := by
  cases he : t.engine with
  | halted => exact absurd he ht
  | fetch | decode | executeMemWb => simp only [runLoop, h, he]

theorem run_of_halted (maxCycles : Nat) (hs : s.engine = .halted) : run opc maxCycles s = .halted s := by
  rw [run, hs]

theorem run_of_running (maxCycles : Nat) (hs : s.engine ≠ .halted) :
    run opc maxCycles s = runLoop opc maxCycles { s with cycles := 0 } := by
  rw [run]
  cases he : s.engine with
  | halted => exact absurd he hs
  | fetch | decode | executeMemWb => rfl

/-- The ends of the loop with `fuel` cycles left, by how many steps from `s` it has completed. -/
inductive LoopEnd (opc : OpcodeMap) (fuel : Nat) (s : State) : RunOutcome → Prop where
  | halted {k : Nat} {t : State} (hk : k < fuel) (hsteps : stepsWith opc (k + 1) s = some t)
      (hcycles : t.cycles = s.cycles + (k + 1)) (hengine : t.engine = .halted) : LoopEnd opc fuel s (.halted t)
  | bound {t : State} (hsteps : stepsWith opc fuel s = some t) (hcycles : t.cycles = s.cycles + fuel)
      (hengine : t.engine ≠ .halted) : LoopEnd opc fuel s (.cycleLimitExceeded t)
  | fault {k : Nat} {u : State} {f : Fault} (hk : k < fuel) (hsteps : stepsWith opc k s = some u)
      (hcycles : u.cycles = s.cycles + k) (hfault : stepWith opc u = .fault f) :
      LoopEnd opc fuel s (.fault (faultReport u f) (faultState u))

/-- An end of the loop after a cycle is one of the loop before it, one step further away. -/
theorem LoopEnd.of_step {outcome : RunOutcome} (hrun : s.engine ≠ .halted) (h : stepWith opc s = .next t)
    (hend : LoopEnd opc fuel t outcome) : LoopEnd opc (fuel + 1) s outcome := by
  have hcycle : t.cycles = s.cycles + 1 := (stepWith_completedCycle hrun h).cycles
  cases hend with
  | halted hk hsteps hcycles hengine =>
    exact .halted (Nat.succ_lt_succ hk) ((stepsWith_succ h).trans hsteps) (by omega) hengine
  | bound hsteps hcycles hengine => exact .bound ((stepsWith_succ h).trans hsteps) (by omega) hengine
  | fault hk hsteps hcycles hfault =>
    exact .fault (Nat.succ_lt_succ hk) ((stepsWith_succ h).trans hsteps) (by omega) hfault

theorem runLoop_ends (opc : OpcodeMap) (fuel : Nat) {s : State} (hrun : s.engine ≠ .halted) :
    LoopEnd opc fuel s (runLoop opc fuel s) := by
  induction fuel generalizing s with
  | zero => exact .bound rfl rfl hrun
  | succ fuel ih =>
    obtain ⟨t, h⟩ | ⟨f, h⟩ := stepWith_next_or_fault opc s
    · by_cases ht : t.engine = .halted
      · rw [runLoop_of_halted h ht]
        exact .halted fuel.succ_pos (stepsWith_succ h) (stepWith_completedCycle hrun h).cycles ht
      · rw [runLoop_of_running h ht]
        exact (ih ht).of_step hrun h
    · rw [runLoop_of_fault h]
      exact .fault fuel.succ_pos rfl rfl h

end

end Sys2Proof.Machine

/-! The rules of 60_exceptions.md. -/

namespace Sys2Proof.Proofs

open Sys2Proof.Machine

/-- Settles O54: a well-formed dcache map has no entry to shadow an address outside memory, and a store reads none. -/
theorem dataAccessOutsideMemoryFaults : Obligations.DataAccessOutsideMemoryFaults :=
  fun _ _ _ _ _ _ _ ha hb hc => ⟨exec_load_outside ha hb hc, exec_store_outside ha hb hc⟩

/-- Settles O55: an instruction and a step complete or fault, and well-formedness leaves load's and store's faults. -/
theorem onlyLoadAndStoreFaultInExecute : Obligations.OnlyLoadAndStoreFaultInExecute := by
  refine ⟨fun i s hwf => ?_, fun opc s r hrefused => ?_⟩
  · obtain hnext | ⟨f, hf⟩ := exec_next_or_fault i s
    · exact .inl hnext
    · cases exec_fault hf with
      | registerIndex hbad => cases (firstBad_eq_none_iff.2 hwf).symm.trans hbad
      | load a ha hge => exact .inr (.inl ⟨_, _, _, _, rfl, hge, hf⟩)
      | store c hc hge => exact .inr (.inr ⟨_, _, _, _, rfl, hge, hf⟩)
  · obtain ⟨t, h⟩ | ⟨f, h⟩ := stepWith_next_or_fault opc s <;> cases h.symm.trans hrefused

/-- Settles O58: the fetch succeeded, so the fault is the instruction's, and none of those is of kind fetch. -/
theorem faultAfterFetchLeavesFetchsEffects : Obligations.FaultAfterFetchLeavesFetchsEffects := by
  intro opc s w icache f _ hload hstep
  refine ⟨?_, faultState_of_fetched hload, faultReport_of_fetched hload f⟩
  rintro a rfl
  obtain ⟨-, hfetch | ⟨w', icache', i, -, -, hexec⟩⟩ := stepWith_fault_cases hstep
  · cases (fetchStage_of_load hload).symm.trans hfetch
  · cases hexec

/-- Settles O59, by `runLoop_ends` from a count of 0: the steps completed are then the count itself. -/
theorem runEndsInOneOfThreeWays : Obligations.RunEndsInOneOfThreeWays := by
  intro opc maxCycles s
  by_cases hs : s.engine = .halted
  · rw [run_of_halted maxCycles hs]
    exact ⟨hs, fun _ => rfl, fun hrun => absurd hs hrun⟩
  · rw [run_of_running maxCycles hs]
    have hend := runLoop_ends opc maxCycles (s := { s with cycles := 0 }) hs
    generalize runLoop opc maxCycles { s with cycles := 0 } = outcome at hend ⊢
    cases hend with
    | halted hk hsteps hcycles hengine =>
      rw [Nat.zero_add] at hcycles
      exact ⟨hengine, fun hhalted => absurd hhalted hs, fun _ => ⟨by omega, by omega, hcycles ▸ hsteps⟩⟩
    | bound hsteps hcycles hengine => exact ⟨hengine, hcycles.trans (Nat.zero_add _), hsteps⟩
    | fault hk hsteps hcycles hfault =>
      rw [Nat.zero_add] at hcycles
      dsimp only
      rw [faultReport_cycle, faultState_cycles, hcycles]
      exact ⟨rfl, hk, _, _, hsteps, hfault, rfl, rfl⟩

end Sys2Proof.Proofs

/-! The host before the first cycle: the loader's writes pair by pair, what a load or a preload keeps of the invariant,
and the loader text read bit by bit. -/

namespace Sys2Proof.Machine

/-! ## The loader's writes (R153) -/

section
variable {m m' : Memory} {words : List (Nat × Int)}

theorem storeWords_cons_of_lt {p : Nat × Int} (h : p.1 < 65536) (m : Memory) (rest : List (Nat × Int)) :
    storeWords m (p :: rest) = storeWords (m.write p.1 (mask32 p.2)) rest :=
  if_pos ((inMemory_iff p.1).2 h)

theorem storeWords_cons_of_ge {p : Nat × Int} (h : 65536 ≤ p.1) (m : Memory) (rest : List (Nat × Int)) :
    storeWords m (p :: rest) = .error (.addressing p.1) :=
  if_neg fun hin => absurd ((inMemory_iff p.1).1 hin) h.not_gt

theorem storeWords_in_memory (h : ∀ p ∈ words, p.1 < 65536) (m : Memory) : ∃ m', storeWords m words = .ok m' := by
  induction words generalizing m with
  | nil => exact ⟨m, rfl⟩
  | cons p rest ih =>
    obtain ⟨hp, hrest⟩ := List.forall_mem_cons.1 h
    rw [storeWords_cons_of_lt hp]
    exact ih hrest _

/-- The address reported is that of the first pair outside memory. -/
theorem storeWords_outside (h : ∃ p ∈ words, 65536 ≤ p.1) (m : Memory) :
    ∃ a, 65536 ≤ a ∧ storeWords m words = .error (.addressing a) := by
  induction words generalizing m with
  | nil => simp at h
  | cons p rest ih =>
    obtain hp | hp := Nat.lt_or_ge p.1 65536
    · rw [storeWords_cons_of_lt hp]
      exact ih (((List.exists_mem_cons_iff ..).1 h).resolve_left hp.not_ge) _
    · exact ⟨p.1, hp, storeWords_cons_of_ge hp m rest⟩

/-- The last pair of an address is the one that stands. -/
theorem read_of_storeWords (h : storeWords m words = .ok m') (a : Nat) :
    m'.read a = (words.reverse.find? fun p => p.1 == a).elim (m.read a) fun p => mask32 p.2 := by
  induction words generalizing m with
  | nil => cases h; rfl
  | cons p rest ih =>
    obtain hp | hp := Nat.lt_or_ge p.1 65536
    · rw [storeWords_cons_of_lt hp] at h
      rw [ih h, List.reverse_cons, List.find?_append]
      cases rest.reverse.find? fun p => p.1 == a with
      | some q => rfl
      | none =>
        obtain rfl | hne := eq_or_ne p.1 a
        · simp
        · simp [hne, Memory.read_write_other m _ hne.symm]
    · cases (storeWords_cons_of_ge hp m rest).symm.trans h

end

theorem loadProgram_of_storeWords_error {words : List (Nat × Int)} {s : State} {e : HostError}
    (hunrun : beforeFirstCycle s = true) (h : storeWords s.mem words = .error e) : loadProgram words s = .error e := by
  rw [loadProgram, if_pos hunrun, h]

/-! ## The invariant before a run -/

/-- The loader writes memory past the dcache, so coherence is kept because the dcache is empty (R55, R153). -/
theorem State.Inv.load {words : List (Nat × Int)} {s t : State} (hs : s.Inv) (hempty : ∀ a, s.dcache.lookup a = none)
    (h : loadProgram words s = .ok t) : t.Inv := by
  obtain ⟨-, mem, hmem, rfl⟩ := loadProgram_ok_iff.1 h
  exact { hs with
    mem_wf := storeWords_wf hs.mem_wf hmem
    dcache_coherent := fun a v hv => by cases (hempty a).symm.trans hv }

theorem State.Inv.setReg {s : State} (hs : s.Inv) (i : Fin 32) (v : Word) : (s.setReg i v).Inv := { hs with }

/-- Every launch state, by induction over the host's operations (R156). -/
theorem Launched.inv_and_unrun {s : State} (h : Launched s) :
    s.Inv ∧ beforeFirstCycle s = true ∧ ∀ a, s.dcache.lookup a = none := by
  induction h with
  | reset => exact ⟨Proofs.resetMeetsTheInvariant, rfl, fun _ => rfl⟩
  | load words _ hload ih =>
    obtain ⟨hinv, hunrun, hempty⟩ := ih
    have htinv := hinv.load hempty hload
    obtain ⟨-, mem, -, rfl⟩ := loadProgram_ok_iff.1 hload
    exact ⟨htinv, hunrun, hempty⟩
  | preload i v _ hpreload ih =>
    obtain ⟨hinv, hunrun, hempty⟩ := ih
    obtain ⟨-, rfl⟩ := preload_ok_iff.1 hpreload
    exact ⟨hinv.setReg i _, hunrun, hempty⟩

/-! ## The loader text (R154) -/

theorem bitsValue_append (acc : Nat) (chars rest : List Char) :
    bitsValue acc (chars ++ rest) = (bitsValue acc chars).bind fun v => bitsValue v rest := by
  induction chars generalizing acc with
  | nil => rfl
  | cons ch chars ih =>
    rw [List.cons_append, bitsValue, bitsValue]
    split_ifs
    · exact ih _
    · exact ih _
    · rfl

theorem bitsValue_bit (acc : Nat) (b : Bool) : bitsValue acc [if b then '1' else '0'] = some (2 * acc + b.toNat) := by
  cases b <;> rfl

/-- The first `n` characters of a word's line: its bits from bit 31 down. -/
def firstChars (w : Word) (n : Nat) : List Char :=
  (List.range n).map fun k => if w.getLsbD (31 - k) then '1' else '0'

theorem firstChars_succ (w : Word) (n : Nat) :
    firstChars w (n + 1) = firstChars w n ++ [if w.getLsbD (31 - n) then '1' else '0'] := by
  rw [firstChars, List.range_succ, List.map_append]
  rfl

theorem length_firstChars (w : Word) (n : Nat) : (firstChars w n).length = n := by
  rw [firstChars, List.length_map, List.length_range]

/-- The first `n` characters spell the word's `n` highest bits. -/
theorem bitsValue_firstChars (w : Word) {n : Nat} (hn : n ≤ 32) :
    bitsValue 0 (firstChars w n) = some (w.toNat / 2 ^ (32 - n)) := by
  induction n with
  | zero => rw [Nat.div_eq_of_lt w.isLt]; rfl
  | succ n ih =>
    have hhigh : w.toNat / 2 ^ (32 - n) = w.toNat / 2 ^ (31 - n) / 2 := by
      rw [Nat.div_div_eq_div_mul, ← Nat.pow_succ, show (31 - n).succ = 32 - n by omega]
    have hbit : (w.getLsbD (31 - n)).toNat = w.toNat / 2 ^ (31 - n) % 2 := Nat.toNat_testBit _ _
    rw [firstChars_succ, bitsValue_append, ih (by omega), Option.bind_some, bitsValue_bit, hhigh, hbit,
      Nat.div_add_mod, show 32 - (n + 1) = 31 - n by omega]

/-- A word's line is the word at the current address. -/
theorem loaderPairs_word {a : Nat} {rest : List LoaderLine} {pairs : List (Nat × Int)} (w : Word)
    (hrest : loaderPairs (a + 1) rest = some pairs) :
    loaderPairs a (.bits (firstChars w 32) :: rest) = some ((a, (w.toNat : Int)) :: pairs) := by
  have hvalue : bitsValue 0 (firstChars w 32) = some w.toNat := by simpa using bitsValue_firstChars w le_rfl
  exact loaderPairs_bits (length_firstChars w 32) hvalue hrest

end Sys2Proof.Machine

/-! The rules of 70_reset_and_hazards.md. -/

namespace Sys2Proof.Proofs

open Sys2Proof.Machine

/-- Settles O11: by induction over the host's operations; the empty dcache has nothing for a load to make stale. -/
theorem launchStatesMeetTheInvariant : Obligations.LaunchStatesMeetTheInvariant := by
  refine ⟨fun s hs => hs.inv_and_unrun, fun words s t hs hempty h => hs.load hempty h, fun s t i v h => ?_⟩
  obtain ⟨-, rfl⟩ := preload_ok_iff.1 h
  exact ⟨s.reg_setReg_self i _, fun k hk => s.reg_setReg_other i k _ (List.ne_of_not_mem_cons hk), rfl,
    fun hs => hs.setReg i _⟩

/-- Settles O12: a load that succeeds is `storeWords` on memory alone, and its writes are made in order. -/
theorem loaderPlacesTheWords : Obligations.LoaderPlacesTheWords := by
  intro words s hunrun
  refine ⟨fun hin => ?_, fun hout => ?_, fun t h => ?_⟩
  · obtain ⟨mem, hmem⟩ := storeWords_in_memory hin s.mem
    exact ⟨_, loadProgram_ok_iff.2 ⟨hunrun, mem, hmem, rfl⟩⟩
  · obtain ⟨a, ha, herror⟩ := storeWords_outside hout s.mem
    exact ⟨a, ha, loadProgram_of_storeWords_error hunrun herror⟩
  · obtain ⟨-, mem, hmem, rfl⟩ := loadProgram_ok_iff.1 h
    refine ⟨rfl, fun a => (read_of_storeWords hmem a).trans ?_⟩
    cases words.reverse.find? fun p => p.1 == a <;> rfl

/-- Settles O13: the line's first `n` characters spell the word's `n` highest bits, for every `n` up to 32. -/
theorem loaderTextFirstCharacterIsBit31 : Obligations.LoaderTextFirstCharacterIsBit31 := by
  rintro a b w line rest pairs rfl
  exact ⟨loaderPairs_word w, (loaderPairs_directive a b rest).trans, loaderPairs_word w,
    (loaderPairs_directive a 0 rest).trans⟩

end Sys2Proof.Proofs
